-- ==== Sys2Proof/Word.lean ====
section
/-! DEFINITION. The byte (R6: eight bits, bit 0 the least significant) and the decimal digit (R67). -/

namespace Sys2Proof

/-- A byte, an unsigned value 0 to 255 (R6). -/
abbrev Byte := BitVec 8

/-- A decimal digit 0 to 9 (R67); a code above 9 cannot be written. -/
abbrev Digit := Fin 10

end Sys2Proof
end

