-- ==== Sys2Proof/Config.lean ====
section
/-! DEFINITION. The parameters of a block instance (R5, R25), the shape of what passes between the block and the
transport (R40), and the one free value of the model, the transport's answer (R11, R164, D31). -/

namespace Sys2Proof

/-- The patterns of `'0'` to `'9'` and of `'-'`, which the spec leaves to the instance (R121, D15). Each is a byte
whose bit 7 is clear, so seven bits are kept. -/
structure GlyphTable where
  digit : Vector (BitVec 7) 10
  minus : BitVec 7
  deriving DecidableEq, Repr

/-- The construction arguments of an instance (R5, R25): fixed for its life, changed by no operation. `cols` may be
any number, since an unsupported one is not refused at construction but fails every PACK (R102, D6). -/
structure Config where
  cols   : Nat
  quirk  : Bool
  glyphs : GlyphTable
  deriving DecidableEq, Repr

/-- `ROWS`: both supported geometries have eight rows (R5, D29). -/
abbrev Config.rows : Nat := 8

/-- `FRAC_MAX`: the largest number of fraction digits NUM accepts (R5, D10). -/
abbrev Config.fracMax : Nat := 8

/-- The longest grid a request can carry, `GLEN_W = 8` bits of length (R5, R66). -/
abbrev Config.glenMax : Nat := 255

/-- One call of a transport primitive (R40): `CMD(b)`, `WR(addr, bytes)` or `RD(addr, n)`. -/
inductive Transaction where
  | cmd (b : Byte)
  | wr (addr : Byte) (data : List Byte)
  | rd (addr : Byte) (count : Nat)
  deriving DecidableEq, Repr

/-- The transport's error value, opaque to the block (R164). The token only tells two of them apart; nothing is
computed from it (DESIGN CHOICE, log entry 7). -/
structure TransportErr where
  token : Nat
  deriving DecidableEq, Repr, Inhabited

/-- The transport's answer to one transaction (R40). On success a read brings six bytes (R151); a command or a write
brings none, and `bytes` is then not looked at (DESIGN CHOICE, log entry 17). -/
inductive Reply where
  | ok (bytes : Vector Byte 6)
  | error (e : TransportErr)
  deriving DecidableEq, Repr, Inhabited

/-- What the transport will do with a transaction: answer it, or never answer (R189, U11). -/
inductive Draw where
  | reply (r : Reply)
  | silent
  deriving DecidableEq, Repr

/-- A transaction that was handed over and answered (R12, R50). -/
structure Exchange where
  sent  : Transaction
  reply : Reply
  deriving DecidableEq, Repr

/-- FREE VALUE (log entry 5): the transport's answer where the state scripts none, to the `n`-th transaction of the
run. It has no body, so nothing can be proved of it but that it is an answer (R164, D31: both are possible). -/
opaque Config.freeReply : Nat → Transaction → Reply

end Sys2Proof
end

