-- ==== Sys2Proof/Syntax.lean ====
section
/-! DEFINITION. The eight operations (R60) with their operands (R62 to R67), and a request as it stands on the
block's ports (R61). -/

namespace Sys2Proof

/-- The justification mode, the value of `JUST` and of SETJUST's operand (R22, R63). -/
inductive Justification where
  | right
  | left
  deriving DecidableEq, Repr

/-- An operation request as a term (R61, D3): one constructor for each row of the opcode table. -/
inductive Instr where
  /-- OSC (R81): oscillator on or off. -/
  | osc (on : Bool)
  /-- DISP (R82): display on or off, with the blink code of R64. -/
  | disp (on : Bool) (blink : BitVec 2)
  /-- BRIGHT (R83): brightness, the flag and the two's-complement level of R65. -/
  | bright (nonint : Bool) (level : BitVec 16)
  /-- INT (R84): the chip's interrupt output. -/
  | int (enabled : Bool) (activeHigh : Bool)
  /-- PACK (R101): the grid, row-major; `glen` of R66 is the length of the list (log entry 14). -/
  | pack (cells : List Bool)
  /-- NUM (R123): the value operand of R67 and the colon flag. -/
  | num (vkind : BitVec 2) (neg : Bool) (ipart : BitVec 32) (frac : List Digit) (colon : Bool)
  /-- SETJUST (R135): the justification mode. -/
  | setjust (mode : Justification)
  /-- KEYSCAN (R150): the key-scan read. -/
  | keyscan
  deriving DecidableEq, Repr

/-- A request on the block's ports (R61): the operation select and every operand field "on its own port with the
width of rules R62 to R68". An operation looks at its own ports only. -/
structure Ports where
  op         : BitVec 3
  on         : Bool
  blink      : BitVec 2
  nonint     : Bool
  level      : BitVec 16
  enabled    : Bool
  activeHigh : Bool
  vkind      : BitVec 2
  neg        : Bool
  ipart      : BitVec 32
  /-- How many fraction digits there are (R67: a 4-bit count). -/
  fracCount  : BitVec 4
  /-- The BCD fraction digits; the first, most significant one in bits 3..0 (R67). -/
  fracDigits : BitVec 32
  colon      : Bool
  mode       : Bool
  glen       : BitVec 8
  /-- The cells; `cells[k]` in bit `k` (R66). -/
  cells      : BitVec 255
  deriving DecidableEq, Repr

/-- Every port at zero. -/
def Ports.zero : Ports :=
  { op := 0, on := false, blink := 0, nonint := false, level := 0, enabled := false, activeHigh := false, vkind := 0,
    neg := false, ipart := 0, fracCount := 0, fracDigits := 0, colon := false, mode := false, glen := 0, cells := 0 }

/-- Why a request is outside the operand format (R67, R72). -/
inductive DecodeError where
  /-- The count of fraction digits is above `FRAC_MAX`. -/
  | fracCountAboveMax
  /-- A BCD code of a fraction digit is above 9. -/
  | bcdDigitAboveNine
  deriving DecidableEq, Repr

end Sys2Proof
end

