-- ==== Sys2Proof/WellFormed.lean ====
section
/-! DEFINITION. Which terms of `Instr` are requests the ports can carry (R66, R67): the two bounds the types leave
open. -/

namespace Sys2Proof

/-- A grid has at most 255 cells (R66) and a fraction at most `FRAC_MAX` digits (R67); every other operand is
within its width by its type. -/
def Instr.wf : Instr → Bool
  | .osc _ => true
  | .disp _ _ => true
  | .bright _ _ => true
  | .int _ _ => true
  | .pack cells => decide (cells.length ≤ Config.glenMax)
  | .num _ _ _ frac _ => decide (frac.length ≤ Config.fracMax)
  | .setjust _ => true
  | .keyscan => true

end Sys2Proof
end

