-- ==== Sys2Proof/Decode.lean ====
section
/-! DEFINITION. From the ports to the operation (R60 to R67), total, refusing by name what is outside the operand
format (R72); the encoder; and the numbering of the ports as one word, `op` in bits 2..0 as spec/opcode_table.json
has it (the other places are DESIGN CHOICE, log entry 8: the spec packs no word, R61). -/

namespace Sys2Proof

/-- The first `n` BCD digits of `v`, the first in bits 3..0 (R67). -/
def decodeDigits : Nat → Nat → Except DecodeError (List Digit)
  | 0, _ => .ok []
  | n + 1, v =>
    if h : v % 16 < 10 then
      match decodeDigits n (v / 16) with
      | .ok ds => .ok (⟨v % 16, h⟩ :: ds)
      | .error e => .error e
    else .error .bcdDigitAboveNine

/-- The fraction operand of NUM (R67). -/
def decodeFrac (count : BitVec 4) (digits : BitVec 32) : Except DecodeError (List Digit) :=
  if count.toNat ≤ Config.fracMax then decodeDigits count.toNat digits.toNat else .error .fracCountAboveMax

/-- The first `n` cells of `v`, `cells[0]` in bit 0 (R66). -/
def decodeCells : Nat → Nat → List Bool
  | 0, _ => []
  | n + 1, v => decide (v % 2 = 1) :: decodeCells n (v / 2)

/-- The mode bit (R22, R63): 0 = RIGHT, 1 = LEFT. -/
def decodeMode (b : Bool) : Justification := if b then .left else .right

/-- The operation a request stands for (R60: the eight `op` values). All eight are assigned; the only requests
refused are NUMs whose fraction ports are outside the format (R72). -/
def decode (p : Ports) : Except DecodeError Instr :=
  match p.op with
  | 0#3 => .ok (.osc p.on)
  | 1#3 => .ok (.disp p.on p.blink)
  | 2#3 => .ok (.bright p.nonint p.level)
  | 3#3 => .ok (.int p.enabled p.activeHigh)
  | 4#3 => .ok (.pack (decodeCells p.glen.toNat p.cells.toNat))
  | 5#3 =>
    match decodeFrac p.fracCount p.fracDigits with
    | .ok frac => .ok (.num p.vkind p.neg p.ipart frac p.colon)
    | .error e => .error e
  | 6#3 => .ok (.setjust (decodeMode p.mode))
  | 7#3 => .ok .keyscan

/-- The BCD digits as one number, the first in bits 3..0. -/
def encodeDigits : List Digit → Nat
  | [] => 0
  | d :: ds => d.val + 16 * encodeDigits ds

/-- The cells as one number, `cells[0]` in bit 0. -/
def encodeCells : List Bool → Nat
  | [] => 0
  | b :: bs => b.toNat + 2 * encodeCells bs

/-- The mode bit of a justification (R63). -/
def encodeMode : Justification → Bool
  | .right => false
  | .left => true

/-- The ports of a request (R60 to R67); ports the operation does not use are zero. -/
def encode : Instr → Ports
  | .osc on => { Ports.zero with op := 0, on := on }
  | .disp on blink => { Ports.zero with op := 1, on := on, blink := blink }
  | .bright nonint level => { Ports.zero with op := 2, nonint := nonint, level := level }
  | .int enabled activeHigh => { Ports.zero with op := 3, enabled := enabled, activeHigh := activeHigh }
  | .pack cells =>
    { Ports.zero with op := 4, glen := BitVec.ofNat 8 cells.length, cells := BitVec.ofNat 255 (encodeCells cells) }
  | .num vkind neg ipart frac colon =>
    { Ports.zero with op := 5, vkind := vkind, neg := neg, ipart := ipart, fracCount := BitVec.ofNat 4 frac.length,
                      fracDigits := BitVec.ofNat 32 (encodeDigits frac), colon := colon }
  | .setjust mode => { Ports.zero with op := 6, mode := encodeMode mode }
  | .keyscan => { Ports.zero with op := 7 }

/-- Bit `i` of a word. -/
def wordBit (w i : Nat) : Bool := w.testBit i

/-- Bits `lo + n - 1` down to `lo` of a word (R6). -/
def wordField (w lo n : Nat) : BitVec n := BitVec.ofNat n (w >>> lo)

/-- The ports numbered as one word (log entry 8); bits from 361 up belong to no port. -/
def portsOfWord (w : Nat) : Ports :=
  { op         := wordField w 0 3
    on         := wordBit w 3
    blink      := wordField w 4 2
    nonint     := wordBit w 6
    level      := wordField w 7 16
    enabled    := wordBit w 23
    activeHigh := wordBit w 24
    vkind      := wordField w 25 2
    neg        := wordBit w 27
    ipart      := wordField w 28 32
    fracCount  := wordField w 60 4
    fracDigits := wordField w 64 32
    colon      := wordBit w 96
    mode       := wordBit w 97
    glen       := wordField w 98 8
    cells      := wordField w 106 255 }

/-- The word of a port bundle: the same places, written. -/
def wordOfPorts (p : Ports) : Nat :=
  p.op.toNat + p.on.toNat * 2 ^ 3 + p.blink.toNat * 2 ^ 4 + p.nonint.toNat * 2 ^ 6 + p.level.toNat * 2 ^ 7
    + p.enabled.toNat * 2 ^ 23 + p.activeHigh.toNat * 2 ^ 24 + p.vkind.toNat * 2 ^ 25 + p.neg.toNat * 2 ^ 27
    + p.ipart.toNat * 2 ^ 28 + p.fracCount.toNat * 2 ^ 60 + p.fracDigits.toNat * 2 ^ 64 + p.colon.toNat * 2 ^ 96
    + p.mode.toNat * 2 ^ 97 + p.glen.toNat * 2 ^ 98 + p.cells.toNat * 2 ^ 106

/-- The number a byte sequence writes, the first byte lowest. -/
def wordOfBytes : List Byte → Nat
  | [] => 0
  | b :: bs => b.toNat + 256 * wordOfBytes bs

/-- Decoding a word, and any bytes. -/
def decodeWord (w : Nat) : Except DecodeError Instr := decode (portsOfWord w)

/-- Decoding any bytes: total, and every byte sequence is read as one request. -/
def decodeBytes (bs : List Byte) : Except DecodeError Instr := decodeWord (wordOfBytes bs)

/-- The word of an instruction. -/
def encodeWord (i : Instr) : Nat := wordOfPorts (encode i)

/-- The port bundle of an opcode-table word: its low `nbits` bits, every bit above them zero. -/
def tableWordPorts (nbits w : Nat) : Ports := portsOfWord (w % 2 ^ nbits)

/-- The instruction the decoder reads from a word of the opcode table. -/
def decodeTableWord (nbits w : Nat) : Option Instr :=
  match decode (tableWordPorts nbits w) with
  | .ok i => some i
  | .error _ => none

end Sys2Proof
end

