-- ==== Sys2Proof/Machine/Board.lean ====
section
/-! DEFINITION. Making an instance's configuration (R5, R180, R182), the constants of the register map (R43), the
glyph table as a mapping from characters (R120, R121), and the default board of `State.reset`. -/

namespace Sys2Proof.Machine

/-- Start address of every block write, the display RAM (R43, R46, D19). -/
def displayRamStart : Byte := 0x00

/-- Start address of the key-scan read (R43). -/
def keyScanStart : Byte := 0x40

/-- How many bytes a key-scan read asks for (R43). -/
def keyScanLength : Nat := 6

/-- How many bytes a PACK sends: two for each row (R5, R47). -/
def matrixLength : Nat := 2 * Config.rows

/-- How many bytes a NUM sends (R5, R47). -/
def numericLength : Nat := 9

/-- The highest brightness level (R5). -/
def maxBrightness : Nat := 15

/-- The highest value NUM shows (R5, R125). -/
def maxShown : Nat := 9999

/-- The magnitude of the lowest value NUM shows, -999 (R5, R125). -/
def minShown : Nat := 999

/-- The decimal-point bit of a digit byte (R5, R120). -/
def pointBit : Byte := 0x80

/-- A slot with no segment lit (R120). -/
def blank : Byte := 0x00

/-- The characters of the glyph table: `'0'` to `'9'`, `':'` and `'-'`, and no others (R120). -/
inductive GlyphChar where
  | digit (d : Digit)
  | minus
  | colon
  deriving DecidableEq, Repr

/-- `GLYPH`: the 8-bit segment pattern of a character (R120, R121). The colon's is `0x02` on every instance. -/
def glyph (g : GlyphTable) : GlyphChar → Byte
  | .digit d => (g.digit[d]).setWidth 8
  | .minus => g.minus.setWidth 8
  | .colon => 0x02

/-- A glyph table from eleven byte patterns, refused unless each has bit 7 clear (R121). -/
def glyphTable? (digits : Vector Byte 10) (minus : Byte) : Option GlyphTable :=
  if (digits.toList ++ [minus]).all (fun b => !b.msb) then
    some { digit := digits.map (·.setWidth 7), minus := minus.setWidth 7 }
  else none

/-- Configuring an instance (R5, R182): a row count other than 8 is refused (D29), and so is a glyph with bit 7
set. A column count is never refused here (R102, D6). -/
def configure? (cols rows : Nat) (quirk : Bool) (digits : Vector Byte 10) (minus : Byte) : Option Config :=
  if rows = Config.rows then
    match glyphTable? digits minus with
    | some g => some { cols := cols, quirk := quirk, glyphs := g }
    | none => none
  else none

/-- The glyph table R121 gives "when it is given none", from general knowledge and not from the source (G1; PRESUMED,
log entry 3). -/
def defaultGlyphs : GlyphTable :=
  { digit := #v[0x3F, 0x06, 0x5B, 0x4F, 0x66, 0x6D, 0x7D, 0x07, 0x7F, 0x6F], minus := 0x40 }

/-- The board `State.reset` is made with: 8 columns, no bit-rotate quirk (DESIGN CHOICE, log entry 2). Every
statement about the machine ranges over all boards. -/
def defaultBoard : Config := { cols := 8, quirk := false, glyphs := defaultGlyphs }

end Sys2Proof.Machine
end

