-- ==== Sys2Proof/Machine/State.lean ====
section
/-! DEFINITION. The state (R22, R23), what a run shows (R9, R12), reset (R30, R180), and the reasons a step can stop.
Plain data throughout. -/

namespace Sys2Proof.Machine

/-- `CFG`, the configuration mirror (R23): each field holds what was last applied, or `none`, "nothing known to be
applied". -/
structure Mirror where
  oscillatorOn        : Option Bool
  displayOn           : Option Bool
  blinkRate           : Option (BitVec 2)
  brightness          : Option (BitVec 4)
  interruptEnabled    : Option Bool
  interruptActiveHigh : Option Bool
  deriving DecidableEq, Repr

/-- The mirror in which nothing is known (R30). -/
def Mirror.unknown : Mirror :=
  { oscillatorOn := none, displayOn := none, blinkRate := none, brightness := none, interruptEnabled := none,
    interruptActiveHigh := none }

/-- `result.error` (R9, R160). -/
inductive OpError where
  | none
  | invalidGeometry
  | invalidValueType
  | transportError (e : TransportErr)
  deriving DecidableEq, Repr

/-- The result record of one operation (R9): the `InvalidBrightness` warning, the error, and a key-scan's data. -/
structure OpResult where
  warn  : Bool
  error : OpError
  data  : Option (Vector Byte 6)
  deriving DecidableEq, Repr

/-- The machine. -/
structure State where
  /-- The construction arguments; no step changes them (R25; log entry 1). -/
  board    : Config
  /-- `JUST` (R22). -/
  just     : Justification
  /-- `CFG` (R23). -/
  cfg      : Mirror
  /-- The host's requests still to be issued, in order (R10, R21; the model's own field, log entry 4). -/
  requests : List Ports
  /-- What the transport will do with the transactions to come, in order (R11; the model's own, log entry 5). -/
  draws    : List Draw
  /-- The transactions handed over, oldest first, each with its answer (R12, R50; log entry 13). -/
  log      : List Exchange
  /-- The result records, oldest first, one for each operation run (R9, R12; log entry 12). -/
  results  : List OpResult
  deriving DecidableEq, Repr

/-- The reason a step never ends. -/
inductive Fault where
  /-- The transport never answers the transaction it was handed, so the step never ends (R189, U11). Raised by every
  operation that calls the transport, only where `draws` scripts it. Safe: nothing is claimed of such a run. -/
  | transportSilent (t : Transaction)
  deriving DecidableEq, Repr

/-- Why a request gets no step. -/
inductive Refusal where
  /-- The instruction has no meaning in the model yet. Raised by no arm of this model. Safe. -/
  | notModelled (mnemonic : String)
  /-- The request is outside the operand format (R67, R72, U15). Raised by `step` alone, before any effect. Safe. -/
  | malformedRequest (e : DecodeError)
  deriving DecidableEq, Repr

/-- Construction of an instance, which is its only reset (R30, R180, R181): `JUST = RIGHT`, every `CFG` field `none`,
an empty trace, nothing sent, no operation run. -/
def State.construct (c : Config) : State :=
  { board := c, just := .right, cfg := Mirror.unknown, requests := [], draws := [], log := [], results := [] }

/-- The machine right after reset, on the default board (log entries 2 and 3). -/
def State.reset : State := State.construct defaultBoard

end Sys2Proof.Machine
end

