-- ==== Sys2Proof/Machine/Flags.lean ====
section
/-! DEFINITION. The conditions of the result record (R9, R160, R161). The block has no persistent flag and no
condition code (R27): these stand in the record of the operation that met them and nowhere else. -/

namespace Sys2Proof.Machine

/-- The code of an error (R160, D20). -/
def OpError.code : OpError → Nat
  | .none => 0
  | .invalidGeometry => 1
  | .invalidValueType => 2
  | .transportError _ => 3

/-- The `InvalidBrightness` warning (R161): the level is not an integer, or lies outside 0 to 15. -/
def invalidBrightness (nonint : Bool) (level : Int) : Bool :=
  nonint || decide (level < 0) || decide ((maxBrightness : Int) < level)

end Sys2Proof.Machine
end

