-- ==== Sys2Proof/Machine/Operands.lean ====
section
/-! DEFINITION. The operands as the operations read them (R62 to R68): bits, the blink code, the clamped brightness
level, the grid's cells, the kinds, range and text of a NUM value. -/

namespace Sys2Proof.Machine

/-- A Boolean operand as the low bit of a byte (R62: 1 = true). -/
def bitByte (b : Bool) : Byte := (BitVec.ofBool b).setWidth 8

/-- The four blink rates (R64). -/
inductive BlinkRate where
  | off
  | hz2
  | hz1
  | hzHalf
  deriving DecidableEq, Repr

/-- The `blinkBits` code of a rate (R64), by which a host turns a rate into DISP's operand. -/
def BlinkRate.code : BlinkRate → BitVec 2
  | .off => 0b00
  | .hz2 => 0b01
  | .hz1 => 0b10
  | .hzHalf => 0b11

/-- The rate a code stands for (R64): every port value is a legal rate. -/
def BlinkRate.ofCode : BitVec 2 → BlinkRate
  | 0#2 => .off
  | 1#2 => .hz2
  | 2#2 => .hz1
  | 3#2 => .hzHalf

/-- The rate in half hertz (R64). -/
def BlinkRate.halfHertz : BlinkRate → Nat
  | .off => 0
  | .hz2 => 4
  | .hz1 => 2
  | .hzHalf => 1

/-- `clampB` (R65): a level that is no integer gives 0, an integer the nearer bound of 0 to 15 or itself. -/
def clampBrightness (nonint : Bool) (level : Int) : Nat :=
  if nonint then 0
  else if level < 0 then 0
  else if (maxBrightness : Int) < level then maxBrightness
  else level.toNat

/-- `cells[k]` of a grid (R66). PACK reads it only after the length check, so only for `k` below the length. -/
def cellAt (cells : List Bool) (k : Nat) : Bool := cells.getD k false

/-- What kind of value a NUM is given (R67, R124). -/
inductive ValueKind where
  | numeric
  | blank
  | nonNumeric
  deriving DecidableEq, Repr

/-- `vkind` (R67): 0 numeric, 1 blank, 2 and 3 not a number. -/
def valueKind : BitVec 2 → ValueKind
  | 0#2 => .numeric
  | 1#2 => .blank
  | 2#2 => .nonNumeric
  | 3#2 => .nonNumeric

/-- Decimal digits of `n`, most significant first, put before `acc`; `fuel` bounds how many. -/
def decFrom : Nat → Nat → List Digit → List Digit
  | 0, _, acc => acc
  | fuel + 1, n, acc =>
    if h : n < 10 then ⟨n, h⟩ :: acc
    else decFrom fuel (n / 10) (⟨n % 10, Nat.mod_lt n (by decide)⟩ :: acc)

/-- `dec(n)` (R68): the decimal digits of `n` with no leading zero, `0` for zero. A 32-bit number has at most ten. -/
def dec (n : Nat) : List Digit := decFrom 10 n []

/-- The fraction has a digit that is not 0 (R123: `nz`). -/
def fracNonzero (frac : List Digit) : Bool := frac.any (fun d => decide (d ≠ 0))

/-- The range policy, step 1 (R125): a value above 9999 is shown as 9999, one below -999 as -999, and a clamped value
has no fraction any more. -/
def clampValue (neg : Bool) (ipart : Nat) (frac : List Digit) : Nat × List Digit :=
  if neg = false ∧ (maxShown < ipart ∨ (ipart = maxShown ∧ fracNonzero frac)) then (maxShown, [])
  else if neg = true ∧ (minShown < ipart ∨ (ipart = minShown ∧ fracNonzero frac)) then (minShown, [])
  else (ipart, frac)

/-- `T0` (R123): the characters before the point, the sign as the operand has it (R68, D14). -/
def integerText (neg : Bool) (ipart : Nat) : List GlyphChar :=
  (if neg then [.minus] else []) ++ (dec ipart).map GlyphChar.digit

/-- `p` (R68, R126): the index the point has in the text, from 0, the sign counted. -/
def pointIndex (neg : Bool) (ipart : Nat) : Nat := (integerText neg ipart).length

/-- Whether the point is accepted, step 2 (R126): it is there, and its index is at most 3. -/
def pointAccepted (neg : Bool) (ipart : Nat) (frac : List Digit) : Bool :=
  decide (frac ≠ []) && decide (pointIndex neg ipart ≤ 3)

/-- `S4` (R127): the text with the point removed, its first four characters. -/
def shownText (neg : Bool) (ipart : Nat) (frac : List Digit) : List GlyphChar :=
  (integerText neg ipart ++ frac.map GlyphChar.digit).take 4

/-- The slot of the first character, step 4 (R129). -/
def justOffset (just : Justification) (length : Nat) : Nat :=
  match just with
  | .right => 4 - length
  | .left => 0

/-- A decimal digit as a character (R68). -/
def digitChar (d : Digit) : Char := Nat.digitChar d.val

/-- `T`, the text of a value (R68). -/
def valueText (neg : Bool) (ipart : Nat) (frac : List Digit) : List Char :=
  (if neg then ['-'] else []) ++ (dec ipart).map digitChar
    ++ (if frac = [] then [] else '.' :: frac.map digitChar)

end Sys2Proof.Machine
end

