-- ==== Sys2Proof/Machine/Ops.lean ====
section
/-! DEFINITION. The operations every meaning is written over: the transport primitives (R8, R40), ending an operation
and raising an error (R8, R165), writing the mirror (R24), rotating a byte (R7). -/

namespace Sys2Proof.Machine

/-- The outcome of a step. -/
abbrev Outcome := Host.Outcome State Fault Refusal

/-- Rotate right by one (R7): bit 0 goes to bit 7, bit `i` to bit `i - 1`. -/
def ror8 (b : Byte) : Byte := (b >>> 1) ||| ((b &&& 1) <<< 7)

/-- The trace (R12): the transactions handed over, in order. -/
def State.trace (s : State) : List Transaction := s.log.map (·.sent)

/-- What the transport will do with transaction `t` if it is handed over now: the next scripted draw, or else the free
reply (R11, R164, D31; log entry 5). -/
def State.peek (s : State) (t : Transaction) : Draw :=
  match s.draws with
  | d :: _ => d
  | [] => .reply (Config.freeReply s.log.length t)

/-- The transaction `t` was handed over and answered with `r` (R12, R50). -/
def State.handOver (t : Transaction) (r : Reply) (s : State) : State :=
  { s with draws := s.draws.tail, log := s.log ++ [{ sent := t, reply := r }] }

/-- End an operation with this result record (R9, R12). -/
def State.report (r : OpResult) (s : State) : State := { s with results := s.results ++ [r] }

/-- The record of an operation that returned (R8, R9). -/
def returnRecord (warn : Bool) (data : Option (Vector Byte 6)) : OpResult :=
  { warn := warn, error := .none, data := data }

/-- The record of an operation that raised `e`: it brings no data, and keeps a warning already raised (R9, R165,
R168). -/
def errorRecord (warn : Bool) (e : OpError) : OpResult := { warn := warn, error := e, data := none }

/-- The record an answered command or block write ends with (R80, R105, R132, R164, R168). -/
def replyRecord (warn : Bool) (r : Reply) : OpResult :=
  match r with
  | .ok _ => returnRecord warn none
  | .error e => errorRecord warn (.transportError e)

/-- The record an answered block read ends with: on success the bytes, untouched (R150, R164). -/
def readRecord (r : Reply) : OpResult :=
  match r with
  | .ok bytes => returnRecord false (some bytes)
  | .error e => errorRecord false (.transportError e)

/-- `return` (R8): end with no error. -/
def State.finish (warn : Bool) (data : Option (Vector Byte 6)) (s : State) : State :=
  s.report (returnRecord warn data)

/-- `raise E` (R8, R165): end the operation at once with error `e`; nothing else is written and control goes
nowhere. A warning already raised stays in the record (R168). -/
def State.raiseError (warn : Bool) (e : OpError) (s : State) : State := s.report (errorRecord warn e)

/-- Hand the transport one transaction and go on with its answer (R40, R48). A transport that never answers leaves
the step unfinished (R189, U11). -/
def transact (t : Transaction) (k : Reply → State → State) (s : State) : Outcome :=
  match s.peek t with
  | .silent => .fault (.transportSilent t)
  | .reply r => .next (k r (s.handOver t r))

/-- `MemWrite(addr, n, v)` and the end of an operation that makes it (R8, R105, R132). -/
def writeBlock (addr : Byte) (data : List Byte) (s : State) : Outcome :=
  transact (.wr addr data) (fun r s' => s'.report (replyRecord false r)) s

/-- `MemRead(addr, n)` and the end of an operation that makes it: the bytes come back untouched (R8, R150). -/
def readBlock (addr : Byte) (count : Nat) (s : State) : Outcome :=
  transact (.rd addr count) (fun r s' => s'.report (readRecord r)) s

/-- The four commands, each with its fields of the mirror (R23). -/
inductive CommandKind where
  | oscillator
  | display
  | brightness
  | interrupt
  deriving DecidableEq, Repr

/-- The fields of a command take "the values the byte b carries" (R24). -/
def Mirror.record (k : CommandKind) (b : Byte) (m : Mirror) : Mirror :=
  match k with
  | .oscillator => { m with oscillatorOn := some (b.getLsbD 0) }
  | .display => { m with displayOn := some (b.getLsbD 0), blinkRate := some (b.extractLsb' 1 2) }
  | .brightness => { m with brightness := some (b.extractLsb' 0 4) }
  | .interrupt => { m with interruptEnabled := some (b.getLsbD 0), interruptActiveHigh := some (b.getLsbD 1) }

/-- The fields of a command become `none`: what was applied is not known (R24, R164). -/
def Mirror.forget (k : CommandKind) (m : Mirror) : Mirror :=
  match k with
  | .oscillator => { m with oscillatorOn := none }
  | .display => { m with displayOn := none, blinkRate := none }
  | .brightness => { m with brightness := none }
  | .interrupt => { m with interruptEnabled := none, interruptActiveHigh := none }

/-- The mirror after a command `b` of kind `k` was answered with `r` (R24). -/
def Mirror.answered (k : CommandKind) (b : Byte) (r : Reply) (m : Mirror) : Mirror :=
  match r with
  | .ok _ => m.record k b
  | .error _ => m.forget k

/-- `command(b, fields)`, the body of every command operation (R80): the byte is handed over, the mirror takes what
the answer makes known, the record follows the answer. -/
def command (k : CommandKind) (b : Byte) (warn : Bool) (s : State) : Outcome :=
  transact (.cmd b)
    (fun r s' => ({ s' with cfg := s'.cfg.answered k b r } : State).report (replyRecord warn r)) s

/-- A request outside the operand format is refused (R67, R72). -/
def refuseRequest (e : DecodeError) : Outcome := .refused (.malformedRequest e)

/-- What the outside can see of a run (R12): the trace, the result records, and the state, which the host may read
between operations without side effect (R31). -/
structure Observation where
  trace   : List Transaction
  results : List OpResult
  just    : Justification
  cfg     : Mirror
  deriving DecidableEq, Repr

/-- Observing changes nothing: it is a function of the state, and a field that holds `none` reads as `none` (R31). -/
def State.observe (s : State) : Observation :=
  { trace := s.trace, results := s.results, just := s.just, cfg := s.cfg }

end Sys2Proof.Machine
end

