-- ==== Sys2Proof/Machine/CommandEncoder.lean ====
section
/-! DEFINITION. The command encoder (R80 to R85): OSC, DISP, BRIGHT, INT. Each computes one byte from its own operands
and hands it over (R80); the bytes are those of R69. -/

namespace Sys2Proof.Machine

/-- The oscillator byte (R81). -/
def oscByte (on : Bool) : Byte := 0x20 ||| bitByte on

/-- The display-control byte (R82): the blink code is sent unchanged when the display is off. -/
def dispByte (on : Bool) (blink : BitVec 2) : Byte := 0x80 ||| (blink.setWidth 8 <<< 1) ||| bitByte on

/-- The brightness byte of a clamped level (R83). -/
def brightByte (level : Nat) : Byte := 0xE0 ||| BitVec.ofNat 8 level

/-- The interrupt byte (R84): one off byte, whatever the polarity, so `0xA2` is never produced. -/
def intByte (enabled activeHigh : Bool) : Byte :=
  if enabled = false then 0xA0 else if activeHigh then 0xA3 else 0xA1

/-- OSC (R81). -/
def execOsc (on : Bool) (s : State) : Outcome := command .oscillator (oscByte on) false s

/-- DISP (R82). -/
def execDisp (on : Bool) (blink : BitVec 2) (s : State) : Outcome := command .display (dispByte on blink) false s

/-- BRIGHT (R83): the level is clamped, with the warning of R161, and the byte is sent all the same. -/
def execBright (nonint : Bool) (level : BitVec 16) (s : State) : Outcome :=
  command .brightness (brightByte (clampBrightness nonint level.toInt)) (invalidBrightness nonint level.toInt) s

/-- INT (R84). -/
def execInt (enabled activeHigh : Bool) (s : State) : Outcome :=
  command .interrupt (intByte enabled activeHigh) false s

end Sys2Proof.Machine
end

