-- ==== Sys2Proof/Machine/KeyScan.lean ====
section
/-! DEFINITION. The key-scan read (R150, R151): KEYSCAN. -/

namespace Sys2Proof.Machine

/-- KEYSCAN (R150): the six bytes the transport answers with, untouched. -/
def execKeyscan (s : State) : Outcome := readBlock keyScanStart keyScanLength s

end Sys2Proof.Machine
end

