-- ==== Sys2Proof/Machine/MatrixPacker.lean ====
section
/-! DEFINITION. The matrix framebuffer packer (R100 to R107): PACK. -/

namespace Sys2Proof.Machine

/-- The geometry check (R102): a supported column count, and a grid of exactly `COLS * ROWS` cells. -/
def geometryOk (c : Config) (glen : Nat) : Bool :=
  (decide (c.cols = 8) || decide (c.cols = 16)) && decide (glen = c.cols * Config.rows)

/-- Eight cells from `cells[base]` on as one byte, cell `base + i` in bit `i` (R45(a), R103). -/
def packByte (cells : List Bool) (base : Nat) : Byte :=
  (List.range 8).foldl (fun acc i => acc ||| (bitByte (cellAt cells (base + i)) <<< i)) 0

/-- The two bytes of row `r` (R45(b) to (d), R103): columns 0 to 7, then columns 8 to 15 of a 16-column grid (the
layout is the spec's decision D8; UNVERIFIED, log entry 10) or the pad byte of an 8-column one. -/
def packRow (cols : Nat) (cells : List Bool) (r : Nat) : List Byte :=
  [packByte cells (r * cols), if cols = 16 then packByte cells (r * cols + 8) else 0x00]

/-- The rows in order (R101, R103). -/
def packRows (cols : Nat) (cells : List Bool) : List Byte :=
  (List.range Config.rows).flatMap (packRow cols cells)

/-- The bit-rotate quirk (R104): every byte of the buffer, pad bytes included, each on its own. -/
def applyQuirk (quirk : Bool) (buf : List Byte) : List Byte := if quirk then buf.map ror8 else buf

/-- The buffer a PACK sends (R101, R103, R104); it depends on the grid, `COLS` and `QUIRK` alone (R106(e)). -/
def packBuffer (c : Config) (cells : List Bool) : List Byte := applyQuirk c.quirk (packRows c.cols cells)

/-- PACK (R101): the geometry check comes before anything is handed over (R165). -/
def execPack (cells : List Bool) (s : State) : Outcome :=
  if geometryOk s.board cells.length then writeBlock displayRamStart (packBuffer s.board cells) s
  else .next (s.raiseError false .invalidGeometry)

end Sys2Proof.Machine
end

