-- ==== Sys2Proof/Machine/NumericEncoder.lean ====
section
/-! DEFINITION. The numeric display encoder (R120 to R136): NUM and SETJUST. -/

namespace Sys2Proof.Machine

/-- The source's NumericDisplayState (R26, R133): the glyphs of the four slots, the slot the decimal point stands on,
and the colon. A value of one NUM, kept nowhere. -/
structure NumericDisplay where
  digits           : List Byte
  decimalPointSlot : Option Nat
  colonOn          : Bool
  deriving DecidableEq, Repr

/-- The four slots of a text of at most four characters (R128, R129): its glyphs from the slot justification gives,
blanks elsewhere. -/
def slotGlyphs (g : GlyphTable) (just : Justification) (text : List GlyphChar) : List Byte :=
  let off := justOffset just text.length
  List.replicate off blank ++ text.map (glyph g) ++ List.replicate (4 - off - text.length) blank

/-- The slot of the accepted point (R130): that of the digit before it. -/
def pointSlot (just : Justification) (neg : Bool) (ipart : Nat) (frac : List Digit) : Option Nat :=
  if pointAccepted neg ipart frac then
    some (justOffset just (shownText neg ipart frac).length + pointIndex neg ipart - 1)
  else none

/-- A value already inside the range, as the display shows it (R126 to R130). -/
def showInRange (g : GlyphTable) (just : Justification) (neg : Bool) (ipart : Nat) (frac : List Digit)
    (colon : Bool) : NumericDisplay :=
  { digits := slotGlyphs g just (shownText neg ipart frac)
    decimalPointSlot := pointSlot just neg ipart frac
    colonOn := colon }

/-- Any numeric value: the range policy comes first (R125). -/
def showNumber (g : GlyphTable) (just : Justification) (neg : Bool) (ipart : Nat) (frac : List Digit)
    (colon : Bool) : NumericDisplay :=
  showInRange g just neg (clampValue neg ipart frac).1 (clampValue neg ipart frac).2 colon

/-- The blank: four blank slots, no point, the colon still honoured (R124). -/
def showBlank (colon : Bool) : NumericDisplay :=
  { digits := [blank, blank, blank, blank], decimalPointSlot := none, colonOn := colon }

/-- The byte of slot `j`, the point bit set on its slot (R130). -/
def NumericDisplay.slotByte (d : NumericDisplay) (j : Nat) : Byte :=
  if d.decimalPointSlot = some j then d.digits.getD j blank ||| pointBit else d.digits.getD j blank

/-- The nine bytes (R131): slot 0, pad, slot 1, pad, colon, pad, slot 2, pad, slot 3. -/
def NumericDisplay.bytes (g : GlyphTable) (d : NumericDisplay) : List Byte :=
  [d.slotByte 0, 0x00, d.slotByte 1, 0x00, if d.colonOn then glyph g .colon else 0x00, 0x00, d.slotByte 2, 0x00,
    d.slotByte 3]

/-- NUM (R123): a value that is not a number fails before anything is handed over (R124, R165). -/
def execNum (vkind : BitVec 2) (neg : Bool) (ipart : BitVec 32) (frac : List Digit) (colon : Bool) (s : State) :
    Outcome :=
  match valueKind vkind with
  | .nonNumeric => .next (s.raiseError false .invalidValueType)
  | .blank => writeBlock displayRamStart ((showBlank colon).bytes s.board.glyphs) s
  | .numeric =>
    writeBlock displayRamStart
      ((showNumber s.board.glyphs s.just neg ipart.toNat frac colon).bytes s.board.glyphs) s

/-- SETJUST (R135): the mode is set, nothing is sent. -/
def execSetjust (mode : Justification) (s : State) : Outcome :=
  .next (({ s with just := mode } : State).finish false none)

end Sys2Proof.Machine
end

