-- ==== Sys2Proof/Machine/Dispatch.lean ====
section
/-! DEFINITION. One arm for each operation of R60, each a direct call of its meaning. -/

namespace Sys2Proof.Machine

def exec (i : Instr) (s : State) : Host.Outcome State Fault Refusal :=
  match i with
  | .osc on => Sys2Proof.Machine.execOsc on s
  | .disp on blink => Sys2Proof.Machine.execDisp on blink s
  | .bright nonint level => Sys2Proof.Machine.execBright nonint level s
  | .int enabled activeHigh => Sys2Proof.Machine.execInt enabled activeHigh s
  | .pack cells => Sys2Proof.Machine.execPack cells s
  | .num vkind neg ipart frac colon => Sys2Proof.Machine.execNum vkind neg ipart frac colon s
  | .setjust mode => Sys2Proof.Machine.execSetjust mode s
  | .keyscan => Sys2Proof.Machine.execKeyscan s

end Sys2Proof.Machine
end

