-- ==== Sys2Proof/Machine/Step.lean ====
section
/-! DEFINITION. One step (R11): the host's next request is taken, decoded and run as one atomic operation. With no
request the block waits, holding its state (R30, R174). -/

namespace Sys2Proof.Machine

/-- The step. The request is off the host's list while its operation runs; an overlapping request cannot be written
(R11, R183, log entry 15). -/
def step (s : State) : Host.Outcome State Fault Refusal :=
  match s.requests with
  | [] => .next s
  | p :: rest =>
    match decode p with
    | .ok i => exec i { s with requests := rest }
    | .error e => refuseRequest e

/-- `s` with the request of an opcode-table word as the host's next one (log entries 4 and 8). -/
def State.withFetchWord (s : State) (nbits w : Nat) : State :=
  { s with requests := tableWordPorts nbits w :: s.requests }

end Sys2Proof.Machine
end

