-- ==== Sys2Proof/Machine/Text.lean ====
section
/-! DEFINITION. The textual syntax of requests (R74): reading a line, and writing one. A host-side notation: no step
reads it. Spaces separate; a comma and a slash are tokens of their own (DESIGN CHOICE, log entry 19: R74 shows
spacing by example only). A number no port can carry is no request (U15). -/

namespace Sys2Proof.Machine

/-- A finished token, if there is one; `cur` holds its characters in reverse. -/
def endToken (cur : List Char) : List (List Char) := if cur = [] then [] else [cur.reverse]

/-- The tokens of a line, `cur` being the one under way. -/
def tokensFrom : List Char → List Char → List (List Char)
  | [], cur => endToken cur
  | c :: cs, cur =>
    if c = ' ' then endToken cur ++ tokensFrom cs []
    else if c = ',' ∨ c = '/' then endToken cur ++ [c] :: tokensFrom cs []
    else tokensFrom cs (c :: cur)

/-- The tokens of a line. -/
def tokens (line : List Char) : List (List Char) := tokensFrom line []

/-- One decimal digit. -/
def readDigit (c : Char) : Option Digit :=
  if h : 48 ≤ c.toNat ∧ c.toNat < 58 then some ⟨c.toNat - 48, by omega⟩ else none

/-- A sequence of decimal digits, nothing else in it. -/
def readDigits : List Char → Option (List Digit)
  | [] => some []
  | c :: cs =>
    match readDigit c, readDigits cs with
    | some d, some ds => some (d :: ds)
    | _, _ => none

/-- The number digits write, most significant first. -/
def numberOfDigits (ds : List Digit) : Nat := ds.foldl (fun n d => 10 * n + d.val) 0

/-- `<digits>` of R74 with no leading zero "unless it is 0". -/
def readNumber (cs : List Char) : Option Nat :=
  match readDigits cs with
  | some [] => none
  | some [d] => some d.val
  | some (d :: ds) => if d = 0 then none else some (numberOfDigits (d :: ds))
  | none => none

/-- An optional sign. -/
def readSign : List Char → Bool × List Char
  | '-' :: cs => (true, cs)
  | cs => (false, cs)

/-- The digits after the integer part: nothing, or a point and at least one digit (R74). -/
def readFrac : List Char → Option (List Digit)
  | [] => some []
  | '.' :: c :: cs => readDigits (c :: cs)
  | _ => none

/-- `<decimal>` of R74 as sign, integer part and fraction digits. -/
def readDecimal (cs : List Char) : Option (Bool × Nat × List Digit) :=
  match readNumber ((readSign cs).2.takeWhile (· ≠ '.')), readFrac ((readSign cs).2.dropWhile (· ≠ '.')) with
  | some n, some frac => some ((readSign cs).1, n, frac)
  | _, _ => none

/-- A signed integer. -/
def readInteger (cs : List Char) : Option Int :=
  match readNumber (readSign cs).2 with
  | some n => some (if (readSign cs).1 then -(n : Int) else n)
  | none => none

/-- `on` or `off`. -/
def readOnOff : List Char → Option Bool
  | ['o', 'n'] => some true
  | ['o', 'f', 'f'] => some false
  | _ => none

/-- A blink rate of DISP (R64, R74). -/
def readRate : List Char → Option BlinkRate
  | ['o', 'f', 'f'] => some .off
  | ['2', 'h', 'z'] => some .hz2
  | ['1', 'h', 'z'] => some .hz1
  | ['0', '.', '5', 'h', 'z'] => some .hzHalf
  | _ => none

/-- The polarity of INT. -/
def readPolarity : List Char → Option Bool
  | ['h', 'i', 'g', 'h'] => some true
  | ['l', 'o', 'w'] => some false
  | _ => none

/-- The colon flag of NUM. -/
def readColon : List Char → Option Bool
  | ['c', 'o', 'l', 'o', 'n'] => some true
  | ['n', 'o', 'c', 'o', 'l', 'o', 'n'] => some false
  | _ => none

/-- The mode of SETJUST. -/
def readMode : List Char → Option Justification
  | ['l', 'e', 'f', 't'] => some .left
  | ['r', 'i', 'g', 'h', 't'] => some .right
  | _ => none

/-- A row of PACK: its leftmost character is column 0. -/
def readRow : List Char → Option (List Bool)
  | [] => some []
  | '0' :: cs => (readRow cs).map (false :: ·)
  | '1' :: cs => (readRow cs).map (true :: ·)
  | _ => none

/-- The rows of PACK, separated by slashes: the cells in order. -/
def readRows : List (List Char) → Option (List Bool)
  | [row] => readRow row
  | row :: ['/'] :: rows =>
    match readRow row, readRows rows with
    | some a, some b => some (a ++ b)
    | _, _ => none
  | _ => none

/-- BRIGHT's operand: `nonint`, or an integer the level port carries (R65). -/
def readLevel (cs : List Char) : Option (Bool × BitVec 16) :=
  if cs = ['n', 'o', 'n', 'i', 'n', 't'] then some (true, 0)
  else
    match readInteger cs with
    | some n => if -32768 ≤ n ∧ n ≤ 32767 then some (false, BitVec.ofInt 16 n) else none
    | none => none

/-- NUM's value operand: `blank`, `nonnum` or a decimal (R67, R74). -/
def readValue (cs : List Char) (colon : Bool) : Option Instr :=
  if cs = ['b', 'l', 'a', 'n', 'k'] then some (.num 1 false 0 [] colon)
  else if cs = ['n', 'o', 'n', 'n', 'u', 'm'] then some (.num 2 false 0 [] colon)
  else
    match readDecimal cs with
    | some (neg, n, frac) =>
      if n < 2 ^ 32 ∧ frac.length ≤ Config.fracMax then some (.num 0 neg (BitVec.ofNat 32 n) frac colon) else none
    | none => none

/-- The operands of INT: exactly R74's four forms, `off`, `on,high`, `on,low` and `off,high`; `off,low` is none of
them, that request being `off`. -/
def readInt : List (List Char) → Option Instr
  | [a] => if a = ['o', 'f', 'f'] then some (.int false false) else none
  | [a, [','], b] =>
    match readOnOff a, readPolarity b with
    | some false, some false => none
    | some enabled, some high => some (.int enabled high)
    | _, _ => none
  | _ => none

/-- The grid of a PACK, if the ports can carry it. -/
def readPack (rows : List (List Char)) : Option Instr :=
  match (if rows = [] then some [] else readRows rows) with
  | some cells => if cells.length ≤ Config.glenMax then some (.pack cells) else none
  | none => none

/-- A request from its tokens (R74). -/
def requestOfTokens : List (List Char) → Option Instr
  | [['O', 'S', 'C'], a] => (readOnOff a).map .osc
  | [['D', 'I', 'S', 'P'], a, [','], b] =>
    match readOnOff a, readRate b with
    | some on, some rate => some (.disp on rate.code)
    | _, _ => none
  | [['B', 'R', 'I', 'G', 'H', 'T'], a] => (readLevel a).map (fun x => .bright x.1 x.2)
  | ['I', 'N', 'T'] :: args => readInt args
  | ['P', 'A', 'C', 'K'] :: rows => readPack rows
  | [['N', 'U', 'M'], a, [','], b] =>
    match readColon b with
    | some colon => readValue a colon
    | none => none
  | [['S', 'E', 'T', 'J', 'U', 'S', 'T'], a] => (readMode a).map .setjust
  | [['K', 'E', 'Y', 'S', 'C', 'A', 'N']] => some .keyscan
  | _ => none

/-- Reading a line of R74. -/
def readRequest (line : List Char) : Option Instr := requestOfTokens (tokens line)

/-- `on` or `off`, written. -/
def writeOnOff : Bool → List Char
  | true => ['o', 'n']
  | false => ['o', 'f', 'f']

/-- A blink code's rate, written. -/
def writeRate (blink : BitVec 2) : List Char :=
  match BlinkRate.ofCode blink with
  | .off => ['o', 'f', 'f']
  | .hz2 => ['2', 'h', 'z']
  | .hz1 => ['1', 'h', 'z']
  | .hzHalf => ['0', '.', '5', 'h', 'z']

/-- A decimal number, written with no leading zero. -/
def writeNumber (n : Nat) : List Char := (dec n).map digitChar

/-- A signed integer, written. -/
def writeInteger (n : Int) : List Char := (if n < 0 then ['-'] else []) ++ writeNumber n.natAbs

/-- NUM's value operand, written: a decimal is the text of R68. -/
def writeValue (vkind : BitVec 2) (neg : Bool) (ipart : BitVec 32) (frac : List Digit) : List Char :=
  match valueKind vkind with
  | .numeric => valueText neg ipart.toNat frac
  | .blank => ['b', 'l', 'a', 'n', 'k']
  | .nonNumeric => ['n', 'o', 'n', 'n', 'u', 'm']

/-- A separator between two operands. -/
def comma : List Char := [',', ' ']

/-- The operands of INT, written in R74's form for them. -/
def writeInt : Bool → Bool → List Char
  | false, false => ['o', 'f', 'f']
  | false, true => ['o', 'f', 'f', ',', 'h', 'i', 'g', 'h']
  | true, false => ['o', 'n', ',', 'l', 'o', 'w']
  | true, true => ['o', 'n', ',', 'h', 'i', 'g', 'h']

/-- Writing a request as a line of R74; a grid is written as one row. -/
def writeRequest : Instr → List Char
  | .osc on => ['O', 'S', 'C', ' '] ++ writeOnOff on
  | .disp on blink => ['D', 'I', 'S', 'P', ' '] ++ writeOnOff on ++ comma ++ writeRate blink
  | .bright nonint level =>
    ['B', 'R', 'I', 'G', 'H', 'T', ' ']
      ++ (if nonint then ['n', 'o', 'n', 'i', 'n', 't'] else writeInteger level.toInt)
  | .int enabled activeHigh => ['I', 'N', 'T', ' '] ++ writeInt enabled activeHigh
  | .pack cells => ['P', 'A', 'C', 'K', ' '] ++ cells.map (fun b => if b then '1' else '0')
  | .num vkind neg ipart frac colon =>
    ['N', 'U', 'M', ' '] ++ writeValue vkind neg ipart frac ++ comma
      ++ (if colon then ['c', 'o', 'l', 'o', 'n'] else ['n', 'o', 'c', 'o', 'l', 'o', 'n'])
  | .setjust mode =>
    ['S', 'E', 'T', 'J', 'U', 'S', 'T', ' ']
      ++ (match mode with | .left => ['l', 'e', 'f', 't'] | .right => ['r', 'i', 'g', 'h', 't'])
  | .keyscan => ['K', 'E', 'Y', 'S', 'C', 'A', 'N']

/-- The request with every operand field the operation ignores at its plainest value: the level beside `nonint`
(R65), and the sign, integer part and fraction beside a value that is not numeric (R67; 2 and 3 are one kind). -/
def dropIgnored : Instr → Instr
  | .osc on => .osc on
  | .disp on blink => .disp on blink
  | .bright nonint level => .bright nonint (if nonint then 0 else level)
  | .int enabled activeHigh => .int enabled activeHigh
  | .pack cells => .pack cells
  | .num vkind neg ipart frac colon =>
    match valueKind vkind with
    | .numeric => .num 0 neg ipart frac colon
    | .blank => .num 1 false 0 [] colon
    | .nonNumeric => .num 2 false 0 [] colon
  | .setjust mode => .setjust mode
  | .keyscan => .keyscan

end Sys2Proof.Machine
end

