-- ==== Sys2Proof/Machine/Device.lean ====
section
/-! DEFINITION. A device-side view DERIVED from the log (R29 allows it, by the reading of R44; DEDUCED, log entry 16):
what the block's block writes last put at each address of display RAM. It is no state of the block and no operation
reads it. After a failed write what reached the chip is unknown (R48), so those addresses are then unknown; an address
never written is unknown too (U14, U18). -/

namespace Sys2Proof.Machine

/-- Known bytes by address, addresses strictly rising; an address not listed is unknown. -/
abbrev Memory := List Host.Cell

/-- The canonical form: addresses strictly rising. An unlisted address reads as `none`, which no entry holds. -/
abbrev Memory.wf (m : Memory) : Prop := m.Pairwise (fun a b => a.1 < b.1)

/-- The byte known to stand at an address. -/
def Memory.readByte : Memory → Nat → Option Byte
  | [], _ => none
  | c :: m, a => if c.1 = a then some c.2 else Memory.readByte m a

/-- Put a byte at an address. -/
def Memory.writeByte (m : Memory) (a : Nat) (v : Byte) : Memory :=
  m.filter (fun c => c.1 < a) ++ (a, v) :: m.filter (fun c => a < c.1)

/-- Know an address no more. -/
def Memory.forgetByte (m : Memory) (a : Nat) : Memory := m.filter (fun c => c.1 ≠ a)

/-- Byte `i` of a block goes to address `a + i` (R44). -/
def Memory.writeBytes : Memory → Nat → List Byte → Memory
  | m, _, [] => m
  | m, a, v :: vs => Memory.writeBytes (Memory.writeByte m a v) (a + 1) vs

/-- The `n` addresses from `a` on are no longer known. -/
def Memory.forgetBytes : Memory → Nat → Nat → Memory
  | m, _, 0 => m
  | m, a, n + 1 => Memory.forgetBytes (Memory.forgetByte m a) (a + 1) n

/-- What one answered transaction does to the view: only block writes touch display RAM (R43). -/
def Memory.afterExchange (m : Memory) (x : Exchange) : Memory :=
  match x.sent, x.reply with
  | .wr addr data, .ok _ => Memory.writeBytes m addr.toNat data
  | .wr addr data, .error _ => Memory.forgetBytes m addr.toNat data.length
  | .cmd _, _ => m
  | .rd _ _, _ => m

/-- The display RAM as the block's writes left it. -/
def displayRam (log : List Exchange) : Memory := log.foldl Memory.afterExchange []

/-- The byte the block's writes last put at an address, if known. -/
def State.ramByte (s : State) (a : Nat) : Option Byte := (displayRam s.log).readByte a

end Sys2Proof.Machine
end

