-- ==== Sys2Proof/Machine/TraceReader.lean ====
section
/-! DEFINITION. Reading the trace back (R71): what a transaction is, from its kind and first byte alone. -/

namespace Sys2Proof.Machine

/-- A row of R71's table of commands. -/
structure CommandRow where
  mask  : Byte
  value : Byte
  kind  : CommandKind
  deriving DecidableEq, Repr

/-- The command rows of R71. -/
def commandRows : List CommandRow :=
  [⟨0xFE, 0x20, .oscillator⟩, ⟨0xF8, 0x80, .display⟩, ⟨0xFC, 0xA0, .interrupt⟩, ⟨0xF0, 0xE0, .brightness⟩]

/-- The command a byte is, if it is one (R71). -/
def commandKind (b : Byte) : Option CommandKind := (commandRows.find? (fun r => b &&& r.mask = r.value)).map (·.kind)

/-- What a transaction is, with the fields R71 reads from it. -/
inductive TraceItem where
  | oscillator (on : Bool)
  | display (on : Bool) (blink : BitVec 2)
  | interrupt (enabled activeHigh : Bool)
  | brightness (level : BitVec 4)
  | matrixWrite (data : List Byte)
  | digitWrite (data : List Byte)
  | keyScanRead
  deriving DecidableEq, Repr

/-- The fields of a command byte (R71). -/
def readCommand (k : CommandKind) (b : Byte) : TraceItem :=
  match k with
  | .oscillator => .oscillator (b.getLsbD 0)
  | .display => .display (b.getLsbD 0) (b.extractLsb' 1 2)
  | .interrupt => .interrupt (b.getLsbD 0) (b.getLsbD 1)
  | .brightness => .brightness (b.extractLsb' 0 4)

/-- Reading one transaction (R71). -/
def readTransaction : Transaction → Option TraceItem
  | .cmd b => (commandKind b).map (readCommand · b)
  | .wr addr data =>
    if addr = displayRamStart then
      if data.length = matrixLength then some (.matrixWrite data)
      else if data.length = numericLength then some (.digitWrite data)
      else none
    else none
  | .rd addr count => if addr = keyScanStart ∧ count = keyScanLength then some .keyScanRead else none

/-- The transactions the block may produce (R43, R70, R72): the 29 command bytes (a command of R71, and not `0xA2`),
the two block writes and the one block read. -/
def producible (t : Transaction) : Bool := (readTransaction t).isSome && decide (t ≠ .cmd 0xA2)

end Sys2Proof.Machine
end

