-- ==== Sys2Proof/Safety.lean ====
section
/-! DEFINITION. What holds of the machine in every run, in the terms the statements use: the mirror follows the log
(R24), only producible transactions are logged (R72), and errors and key-scan bytes come back unchanged (R164, R150). -/

namespace Sys2Proof.Machine

/-- The mirror after one more exchange (R24): a command of R71's table records or forgets its fields, anything else
leaves the mirror alone. -/
def mirrorAfter (m : Mirror) (x : Exchange) : Mirror :=
  match x.sent with
  | .cmd b =>
    match commandKind b with
    | some k => m.answered k b x.reply
    | none => m
  | .wr _ _ => m
  | .rd _ _ => m

/-- The mirror the log by itself determines, from nothing known. -/
def mirrorOfLog (log : List Exchange) : Mirror := log.foldl mirrorAfter Mirror.unknown

/-- `CFG` holds what the last command of each kind carried, or `none` (R24, R170, R188). -/
def State.mirrorFollowsLog (s : State) : Prop := s.cfg = mirrorOfLog s.log

/-- Every transaction handed over is one the block may produce (R43, R72). -/
def State.logProducible (s : State) : Prop := ∀ x ∈ s.log, producible x.sent = true

/-- The transport's errors, in order. -/
def transportErrors (log : List Exchange) : List TransportErr :=
  log.filterMap (fun x => match x.reply with | .ok _ => none | .error e => some e)

/-- The transport errors reported, in order. -/
def reportedErrors (rs : List OpResult) : List TransportErr :=
  rs.filterMap (fun r => match r.error with | .transportError e => some e | _ => none)

/-- The bytes of the answered reads, in order. -/
def bytesRead (log : List Exchange) : List (Vector Byte 6) :=
  log.filterMap (fun x => match x.sent, x.reply with | .rd _ _, .ok bytes => some bytes | _, _ => none)

/-- The data reported, in order. -/
def reportedData (rs : List OpResult) : List (Vector Byte 6) := rs.filterMap (·.data)

/-- The transport's errors and the bytes it read are reported unchanged, none lost, none made up (R164, R150). -/
def State.reportsAnswers (s : State) : Prop :=
  reportedErrors s.results = transportErrors s.log ∧ reportedData s.results = bytesRead s.log

/-- The interrupt fields of the mirror (R23): known together, and the polarity is false whenever the output is off. -/
def Mirror.interruptCoherent (m : Mirror) : Prop :=
  (m.interruptEnabled = none ↔ m.interruptActiveHigh = none) ∧
  (m.interruptEnabled = some false → m.interruptActiveHigh = some false)

/-- The whole invariant. -/
structure State.Inv (s : State) : Prop where
  mirror   : s.mirrorFollowsLog
  log      : s.logProducible
  reports  : s.reportsAnswers
  coherent : s.cfg.interruptCoherent

/-- The transport answers transaction `t` if it is handed over now: the assumption R189 and U11 ask a claim of
completion to state. -/
def State.Answers (s : State) (t : Transaction) : Prop := ∃ r, s.peek t = .reply r

end Sys2Proof.Machine
end

