-- ==== Sys2Proof/Certificates/Slice0/Obligations.lean ====
section
/-! DEFINITION. The statements for the provers. A statement of an operation's effect gives the WHOLE next state as a
record update of the state before, so that it says what changes and that nothing else does. A hypothesis
`s.peek t = .reply r` is the transport's answer, the free input of the step (R11). -/

namespace Sys2Proof.Claims

open Sys2Proof.Machine

/-- The record of an operation that ended without error. -/
def done (warn : Bool) : OpResult := { warn := warn, error := .none, data := none }

/-- The record of an operation that ended with an error. -/
def failed (warn : Bool) (e : OpError) : OpResult := { warn := warn, error := e, data := none }

/-- `s` after one transaction and one result record, the mirror as given. -/
def sent (s : State) (t : Transaction) (r : Reply) (m : Mirror) (x : OpResult) : State :=
  { s with draws := s.draws.tail, log := s.log ++ [⟨t, r⟩], cfg := m, results := s.results ++ [x] }

/-- `s` after one result record and nothing else. -/
def told (s : State) (x : OpResult) : State := { s with results := s.results ++ [x] }

/-- The fraction digits as an exact decimal (R67). -/
def fracValue : List Digit → ℚ
  | [] => 0
  | d :: ds => ((d.val : ℚ) + fracValue ds) / 10

/-- The exact decimal a NUM operand denotes (R67). -/
def decimalValue (neg : Bool) (ipart : Nat) (frac : List Digit) : ℚ :=
  (if neg then -1 else 1) * ((ipart : ℚ) + fracValue frac)

/-- The text of a value (R68), with Lean's own decimal printing. -/
def text (neg : Bool) (ipart : Nat) (frac : List Digit) : List Char :=
  (if neg then ['-'] else []) ++ Nat.toDigits 10 ipart
    ++ (if frac = [] then [] else '.' :: frac.map (fun d => Nat.digitChar d.val))

/-- The text NUM shows (R125, R68): 9999 above the range, -999 below it, else the value's own. -/
def shown (neg : Bool) (ipart : Nat) (frac : List Digit) : List Char :=
  if 9999 < decimalValue neg ipart frac then ['9', '9', '9', '9']
  else if decimalValue neg ipart frac < -999 then ['-', '9', '9', '9']
  else text neg ipart frac

/-- The glyph of a character of the text (R120, R128). -/
def charGlyph (g : GlyphTable) (c : Char) : Byte :=
  if c = '-' then g.minus.setWidth 8 else (g.digit[c.toNat - 48]?.getD 0).setWidth 8

/-- The text with its point removed, cut to four characters (R127). -/
def cut (text : List Char) : List Char := (text.filter (fun c => c ≠ '.')).take 4

/-- The slot of the first character (R129). -/
def firstSlot (just : Justification) (length : Nat) : Nat := if just = .right then 4 - length else 0

/-- The byte of slot `j` (R126 to R130), from the text alone: the character that stands there, with the point bit when
the text has a point at index at most 3 and it follows this character. -/
def slot (g : GlyphTable) (just : Justification) (text : List Char) (j : Nat) : Byte :=
  let off := firstSlot just (cut text).length
  if off ≤ j ∧ j < off + (cut text).length then
    charGlyph g ((cut text).getD (j - off) '0')
      ||| (if '.' ∈ text ∧ text.idxOf '.' ≤ 3 ∧ j + 1 = off + text.idxOf '.' then 0x80 else 0x00)
  else 0x00

/-- The error of the last result record. -/
def lastError (s : State) : Option OpError := s.results.getLast?.map (·.error)

/-- The warning of the last result record. -/
def lastWarn (s : State) : Option Bool := s.results.getLast?.map (·.warn)

/-- PACK's geometry condition (R102). -/
def badGeometry (c : Config) (glen : Nat) : Prop := (c.cols ≠ 8 ∧ c.cols ≠ 16) ∨ glen ≠ c.cols * 8

end Sys2Proof.Claims

open Sys2Proof Sys2Proof.Machine Sys2Proof.Claims

/-! Decoding and encoding (R60 to R67, R72). -/

/-- Decoding the word of a well-formed instruction gives it back, every operand at every value the ports carry. The
places of the ports in the word are the model's (log entry 8). -/
def Obligations.DecodeGivesBackEveryEncodedInstruction : Prop :=
  ∀ i : Instr, i.wf = true → decodeWord (encodeWord i) = .ok i

/-- A request the decoder accepts stands for a well-formed instruction of the operation its `op` selects, and the
ports are told apart by it: encoding it and decoding again gives the same instruction (R60, R61). -/
def Obligations.AcceptedRequestIsWellFormed : Prop :=
  ∀ (p : Ports) (i : Instr), decode p = .ok i → i.wf = true ∧ (encode i).op = p.op ∧ decode (encode i) = .ok i

/-- A request is refused exactly when it is a NUM with more than eight fraction digits or, among those it has, a BCD code
above 9; every other request, of every `op`, is accepted (R67, R72). -/
def Obligations.RequestRefusedExactlyForMalformedFraction : Prop :=
  ∀ p : Ports, (∃ e, decode p = .error e) ↔
    p.op = 5 ∧ (8 < p.fracCount.toNat ∨
      ∃ j, j < p.fracCount.toNat ∧ 9 < (p.fracDigits.extractLsb' (4 * j) 4).toNat)

/-- The eight `op` values of R60, written out, with every other bit zero. -/
def Obligations.TableWordsDecodeToTheirOperations : Prop :=
  decodeTableWord 8 0b000 = some (.osc false) ∧ decodeTableWord 8 0b001 = some (.disp false 0) ∧
  decodeTableWord 8 0b010 = some (.bright false 0) ∧ decodeTableWord 8 0b011 = some (.int false false) ∧
  decodeTableWord 8 0b100 = some (.pack []) ∧ decodeTableWord 8 0b101 = some (.num 0 false 0 [] false) ∧
  decodeTableWord 8 0b110 = some (.setjust .right) ∧ decodeTableWord 8 0b111 = some .keyscan

/-- The four blink codes of R64, both ways, and the order it warns of: the larger the code above zero, the slower the
blink. -/
def Obligations.BlinkCodesAreInverseToFrequency : Prop :=
  (∀ r, BlinkRate.ofCode r.code = r) ∧ (∀ c, (BlinkRate.ofCode c).code = c) ∧
  BlinkRate.off.code = 0b00 ∧ BlinkRate.hz2.code = 0b01 ∧ BlinkRate.hz1.code = 0b10 ∧ BlinkRate.hzHalf.code = 0b11 ∧
  ∀ a b : BitVec 2, 0 < a → a < b → (BlinkRate.ofCode b).halfHertz < (BlinkRate.ofCode a).halfHertz

/-- A line of the textual syntax, written and read back, gives the request, with the operand fields its operation
ignores dropped (R74, R65, R67). Its spacing is the model's (log entry 19). -/
def Obligations.WrittenRequestReadsBack : Prop :=
  ∀ i : Instr, i.wf = true → readRequest (writeRequest i) = some (dropIgnored i)

/-- Operand fields the spec says are ignored have no effect: the level beside `nonint` (R65), and the sign, integer part
and fraction of a NUM that is blank or not a number (R67). -/
def Obligations.IgnoredOperandsHaveNoEffect : Prop :=
  ∀ (i : Instr) (s : State), exec (dropIgnored i) s = exec i s

/-! The step (R11), reset (R30, R180) and configuration (R5). -/

/-- With a request that decodes, the step takes it off the host's list and is `exec` of its instruction. -/
def Obligations.StepRunsTheDecodedRequest : Prop :=
  ∀ (s : State) (p : Ports) (rest : List Ports) (i : Instr),
    s.requests = p :: rest → decode p = .ok i → step s = exec i { s with requests := rest }

/-- A request outside the operand format stops the step by name, before any effect (R67, R72; log entry 9). -/
def Obligations.StepRefusesMalformedRequest : Prop :=
  ∀ (s : State) (p : Ports) (rest : List Ports), s.requests = p :: rest → p.op = 5 →
    (8 < p.fracCount.toNat → step s = .refused (.malformedRequest .fracCountAboveMax)) ∧
    (p.fracCount.toNat ≤ 8 → (∃ j, j < p.fracCount.toNat ∧ 9 < (p.fracDigits.extractLsb' (4 * j) 4).toNat) →
      step s = .refused (.malformedRequest .bcdDigitAboveNine))

/-- With no request the block waits and holds its state (R30, R174). -/
def Obligations.WaitingStepKeepsTheState : Prop := ∀ s : State, s.requests = [] → step s = .next s

/-- Placing a table word as the next request makes the next step run its instruction on the state as it was. -/
def Obligations.PlacedWordRunsNext : Prop :=
  ∀ (s : State) (nbits w : Nat) (i : Instr), decodeTableWord nbits w = some i →
    step (s.withFetchWord nbits w) = exec i s

/-- Construction is the reset (R30, R180, R181), whatever the configuration: `JUST` is RIGHT, every mirror field is
`none`, the trace is empty, no operation has run and the arguments are kept. That construction is the reset and sends
nothing is the spec's decision D22, that the mirror starts at `none` its decision D17. The last clause speaks of the
display-RAM view the model derives (DEDUCED, log entry 16): nothing is known of any address. That no request and no
answer is listed is the model's own choice (log entries 4 and 5) and no part of this. -/
def Obligations.ConstructionStartsEmpty : Prop :=
  ∀ c : Config,
    (State.construct c).just = .right ∧ (State.construct c).cfg.oscillatorOn = none ∧
    (State.construct c).cfg.displayOn = none ∧ (State.construct c).cfg.blinkRate = none ∧
    (State.construct c).cfg.brightness = none ∧ (State.construct c).cfg.interruptEnabled = none ∧
    (State.construct c).cfg.interruptActiveHigh = none ∧ (State.construct c).trace = [] ∧
    (State.construct c).results = [] ∧ (State.construct c).board = c ∧
    ∀ a, (State.construct c).ramByte a = none

/-- Configuring (R5, R121, R182): a row count other than 8 and a glyph with bit 7 set are refused; otherwise the
instance has the arguments it was given, whatever the column count, and its glyphs are the given bytes. -/
def Obligations.ConfigureKeepsOrRefusesItsArguments : Prop :=
  ∀ (cols rows : Nat) (quirk : Bool) (digits : Vector Byte 10) (minus : Byte),
    (rows ≠ 8 → configure? cols rows quirk digits minus = none) ∧
    ((minus.getLsbD 7 = true ∨ ∃ d : Digit, digits[d].getLsbD 7 = true) →
      configure? cols rows quirk digits minus = none) ∧
    (rows = 8 → minus.getLsbD 7 = false → (∀ d : Digit, digits[d].getLsbD 7 = false) →
      ∃ c, configure? cols rows quirk digits minus = some c ∧ c.cols = cols ∧ c.quirk = quirk ∧
        (∀ d : Digit, glyph c.glyphs (.digit d) = digits[d]) ∧ glyph c.glyphs .minus = minus)

/-- Every digit and minus glyph has bit 7 clear, so that the point bit adds the point and nothing else (R121), and the
colon is `0x02` (R120), whatever the table. -/
def Obligations.GlyphsLeaveThePointBitClear : Prop :=
  ∀ g : GlyphTable, (∀ c : GlyphChar, (glyph g c).getLsbD 7 = false) ∧ glyph g .colon = 0x02

/-! The command encoder (R80 to R85). The mirror after a transport error is the spec's decision D17 (R24). -/

/-- OSC (R81): `op` 0; `0x21` or `0x20`; the mirror's field takes the bit sent, or `none` on a transport error. -/
def Obligations.OscSendsItsByte : Prop :=
  (∀ p : Ports, p.op = 0 → decode p = .ok (.osc p.on)) ∧
  ∀ (on : Bool) (s : State), let t : Transaction := .cmd (if on then 0x21 else 0x20)
    (∀ v, s.peek t = .reply (.ok v) →
      exec (.osc on) s = .next (sent s t (.ok v) { s.cfg with oscillatorOn := some on } (done false))) ∧
    (∀ e, s.peek t = .reply (.error e) →
      exec (.osc on) s =
        .next (sent s t (.error e) { s.cfg with oscillatorOn := none } (failed false (.transportError e))))

/-- DISP (R82): `op` 1; `0x80 | blink << 1 | on`, the blink bits sent unchanged when the display is off. -/
def Obligations.DispSendsItsByte : Prop :=
  (∀ p : Ports, p.op = 1 → decode p = .ok (.disp p.on p.blink)) ∧
  ∀ (on : Bool) (blink : BitVec 2) (s : State),
    let t : Transaction := .cmd (BitVec.ofNat 8 (0x80 + 2 * blink.toNat + on.toNat))
    (∀ v, s.peek t = .reply (.ok v) →
      exec (.disp on blink) s =
        .next (sent s t (.ok v) { s.cfg with displayOn := some on, blinkRate := some blink } (done false))) ∧
    (∀ e, s.peek t = .reply (.error e) →
      exec (.disp on blink) s =
        .next (sent s t (.error e) { s.cfg with displayOn := none, blinkRate := none }
          (failed false (.transportError e))))

/-- BRIGHT (R83): `op` 2; the level clamped to the nearer bound, 0 for a non-integer, the warning exactly when it was
clamped, the byte sent all the same; with a transport error the record carries both (R168). -/
def Obligations.BrightClampsAndSends : Prop :=
  (∀ p : Ports, p.op = 2 → decode p = .ok (.bright p.nonint p.level)) ∧
  ∀ (nonint : Bool) (level : BitVec 16) (s : State),
    let lv : Nat := if nonint then 0 else if level.toInt < 0 then 0 else if 15 < level.toInt then 15 else level.toNat
    let warn : Bool := nonint || decide (level.toInt < 0) || decide (15 < level.toInt)
    let t : Transaction := .cmd (BitVec.ofNat 8 (0xE0 + lv))
    (∀ v, s.peek t = .reply (.ok v) →
      exec (.bright nonint level) s =
        .next (sent s t (.ok v) { s.cfg with brightness := some (BitVec.ofNat 4 lv) } (done warn))) ∧
    (∀ e, s.peek t = .reply (.error e) →
      exec (.bright nonint level) s =
        .next (sent s t (.error e) { s.cfg with brightness := none } (failed warn (.transportError e))))

/-- INT (R84): `op` 3; `0xA0` off whatever the polarity, `0xA3` active-high, `0xA1` active-low; the mirror takes the
polarity the byte carries, the spec's decision D17. -/
def Obligations.IntSendsItsByte : Prop :=
  (∀ p : Ports, p.op = 3 → decode p = .ok (.int p.enabled p.activeHigh)) ∧
  ∀ (enabled activeHigh : Bool) (s : State),
    let t : Transaction :=
      .cmd (match enabled, activeHigh with | false, _ => 0xA0 | true, true => 0xA3 | true, false => 0xA1)
    (∀ v, s.peek t = .reply (.ok v) →
      exec (.int enabled activeHigh) s =
        .next (sent s t (.ok v)
          { s.cfg with interruptEnabled := some enabled, interruptActiveHigh := some (enabled && activeHigh) }
          (done false))) ∧
    (∀ e, s.peek t = .reply (.error e) →
      exec (.int enabled activeHigh) s =
        .next (sent s t (.error e) { s.cfg with interruptEnabled := none, interruptActiveHigh := none }
          (failed false (.transportError e))))

/-! The matrix packer (R100 to R107). -/

/-- PACK with a right geometry (R101, R105): one block write from `0x00` of the packed buffer, all sixteen bytes, the
transport's answer the result, nothing else changed. -/
def Obligations.PackWritesItsBuffer : Prop :=
  ∀ (cells : List Bool) (s : State), (s.board.cols = 8 ∨ s.board.cols = 16) → cells.length = s.board.cols * 8 →
    let t : Transaction := .wr 0x00 (packBuffer s.board cells)
    (packBuffer s.board cells).length = 16 ∧
    (∀ v, s.peek t = .reply (.ok v) → exec (.pack cells) s = .next (sent s t (.ok v) s.cfg (done false))) ∧
    (∀ e, s.peek t = .reply (.error e) →
      exec (.pack cells) s = .next (sent s t (.error e) s.cfg (failed false (.transportError e))))

/-- InvalidGeometry (R162, R102, R165): PACK raises it exactly when the column count is not 8 or 16 or the grid's length is
not `COLS * 8`; its result record is then the only change; no other operation raises it. -/
def Obligations.InvalidGeometryExactlyFromPack : Prop :=
  (∀ (cells : List Bool) (s : State), badGeometry s.board cells.length →
    exec (.pack cells) s = .next (told s (failed false .invalidGeometry))) ∧
  (∀ (i : Instr) (s t : State), exec i s = .next t → lastError t = some .invalidGeometry →
    ∃ cells, i = .pack cells ∧ badGeometry s.board cells.length)

/-- The packed bytes of an 8-column grid, bit by bit (R103, R45): bit `i` of byte `2r` is column `i` of row `r`, and byte
`2r + 1` is zero. -/
def Obligations.EightColumnBytesBitByBit : Prop :=
  ∀ (c : Config) (cells : List Bool), c.cols = 8 → c.quirk = false → cells.length = 64 →
    (packBuffer c cells).length = 16 ∧
    ∀ r, r < 8 → ∃ lo, (packBuffer c cells)[2 * r]? = some lo ∧ (packBuffer c cells)[2 * r + 1]? = some 0x00 ∧
      ∀ i, i < 8 → cells[8 * r + i]? = some (lo.getLsbD i)

/-- The packed bytes of a 16-column grid (R103, the spec's decision D8; log entry 10): columns 0 to 7 in byte `2r`, columns 8
to 15 in byte `2r + 1`, the lowest column in bit 0. -/
def Obligations.SixteenColumnBytesBitByBit : Prop :=
  ∀ (c : Config) (cells : List Bool), c.cols = 16 → c.quirk = false → cells.length = 128 →
    (packBuffer c cells).length = 16 ∧
    ∀ r, r < 8 → ∃ lo hi, (packBuffer c cells)[2 * r]? = some lo ∧ (packBuffer c cells)[2 * r + 1]? = some hi ∧
      ∀ i, i < 8 → cells[16 * r + i]? = some (lo.getLsbD i) ∧ cells[16 * r + 8 + i]? = some (hi.getLsbD i)

/-- The quirk (R104): every byte of the buffer rotated right by one, each on its own, bit 0 to bit 7 and bit `i` to bit
`i - 1`; on every board and grid. -/
def Obligations.QuirkRotatesEveryByte : Prop :=
  ∀ (c : Config) (cells : List Bool) (k : Nat) (b : Byte),
    (packBuffer { c with quirk := false } cells)[k]? = some b →
    ∃ b', (packBuffer { c with quirk := true } cells)[k]? = some b' ∧ b'.getLsbD 7 = b.getLsbD 0 ∧
      ∀ i, i < 7 → b'.getLsbD i = b.getLsbD (i + 1)

/-- Rotating is undone by a rotation left, gives the identity after eight times, and is no involution but on the four
bytes `00 55 AA FF` (R73(e), conflict C3). -/
def Obligations.RotationIsABijectionAndNoInvolution : Prop :=
  ∀ b : Byte, (ror8 b).rotateLeft 1 = b ∧ ror8 (b.rotateLeft 1) = b ∧
    ror8 (ror8 (ror8 (ror8 (ror8 (ror8 (ror8 (ror8 b))))))) = b ∧
    (ror8 (ror8 b) = b ↔ b = 0x00 ∨ b = 0x55 ∨ b = 0xAA ∨ b = 0xFF)

/-- The grid can be recovered from the buffer (R106(d)), for either geometry and either quirk. -/
def Obligations.PackIsInjective : Prop :=
  ∀ (c : Config) (g h : List Bool), (c.cols = 8 ∨ c.cols = 16) → g.length = c.cols * 8 → h.length = c.cols * 8 →
    packBuffer c g = packBuffer c h → g = h

/-- The all-dark and the all-lit 8-column grid, with either quirk (R106(a), (b)). -/
def Obligations.UniformGridsPackAsTheSourceSays : Prop :=
  ∀ c : Config, c.cols = 8 →
    packBuffer c (List.replicate 64 false) = List.replicate 16 0x00 ∧
    packBuffer c (List.replicate 64 true)
      = [0xFF, 0x00, 0xFF, 0x00, 0xFF, 0x00, 0xFF, 0x00, 0xFF, 0x00, 0xFF, 0x00, 0xFF, 0x00, 0xFF, 0x00]

/-- Every odd byte of an 8-column buffer is zero, for every grid and either quirk (R106(c)). -/
def Obligations.EightColumnPadBytesStayZero : Prop :=
  ∀ (c : Config) (cells : List Bool) (r : Nat), c.cols = 8 → r < 8 → (packBuffer c cells)[2 * r + 1]? = some 0x00

/-! The numeric encoder (R120 to R136). -/

/-- NUM on a blank or on no number (R124): the blank writes four blank slots and the colon byte, whatever `JUST`, the sign,
the integer part and the fraction; no number fails with InvalidValueType, sends nothing and changes nothing. -/
def Obligations.NumBlankAndNonNumeric : Prop :=
  ∀ (neg : Bool) (ipart : BitVec 32) (frac : List Digit) (colon : Bool) (s : State),
    let t : Transaction :=
      .wr 0x00 [0x00, 0x00, 0x00, 0x00, if colon then 0x02 else 0x00, 0x00, 0x00, 0x00, 0x00]
    (∀ v, s.peek t = .reply (.ok v) →
      exec (.num 1 neg ipart frac colon) s = .next (sent s t (.ok v) s.cfg (done false))) ∧
    (∀ e, s.peek t = .reply (.error e) →
      exec (.num 1 neg ipart frac colon) s =
        .next (sent s t (.error e) s.cfg (failed false (.transportError e)))) ∧
    exec (.num 2 neg ipart frac colon) s = .next (told s (failed false .invalidValueType)) ∧
    exec (.num 3 neg ipart frac colon) s = .next (told s (failed false .invalidValueType))

/-- InvalidValueType (R163, R165): a NUM with `vkind` 2 or 3 fails with it, its result record the only change, whatever the
colon; nothing else raises it. -/
def Obligations.InvalidValueTypeExactlyFromNum : Prop :=
  (∀ (vkind : BitVec 2) (neg : Bool) (ipart : BitVec 32) (frac : List Digit) (colon : Bool) (s : State),
    (vkind = 2 ∨ vkind = 3) →
    exec (.num vkind neg ipart frac colon) s = .next (told s (failed false .invalidValueType))) ∧
  (∀ (i : Instr) (s t : State), exec i s = .next t → lastError t = some .invalidValueType →
    ∃ vkind neg ipart frac colon, i = .num vkind neg ipart frac colon ∧ (vkind = 2 ∨ vkind = 3))

/-- NUM on a number, the whole of it (R123): one block write from `0x00` of nine bytes, made from the TEXT of the exact
decimal, clamped to -999 and 9999 first: the point removed, four characters kept, justified, the point bit on the
character before an accepted point, the colon between slots 1 and 2. The text side (`Claims.shown`, `Claims.slot`) is
written from R125 to R131 with Lean's decimal printing and rational arithmetic, apart from the model's own. -/
def Obligations.NumShowsTheTextOfTheValue : Prop :=
  ∀ (neg : Bool) (ipart : BitVec 32) (frac : List Digit) (colon : Bool) (s : State),
    let f : Nat → Byte := slot s.board.glyphs s.just (shown neg ipart.toNat frac)
    let t : Transaction :=
      .wr 0x00 [f 0, 0x00, f 1, 0x00, if colon then 0x02 else 0x00, 0x00, f 2, 0x00, f 3]
    (∀ v, s.peek t = .reply (.ok v) →
      exec (.num 0 neg ipart frac colon) s = .next (sent s t (.ok v) s.cfg (done false))) ∧
    (∀ e, s.peek t = .reply (.error e) →
      exec (.num 0 neg ipart frac colon) s =
        .next (sent s t (.error e) s.cfg (failed false (.transportError e))))

/-- The range policy (R125): the comparison is on the exact decimal value; a value above 9999 becomes 9999 and one below
-999 becomes -999, the fraction gone; every other value is kept. -/
def Obligations.RangePolicyComparesExactDecimals : Prop :=
  ∀ (neg : Bool) (ipart : Nat) (frac : List Digit),
    (9999 < decimalValue neg ipart frac → clampValue neg ipart frac = (9999, [])) ∧
    (decimalValue neg ipart frac < -999 → clampValue neg ipart frac = (999, [])) ∧
    (-999 ≤ decimalValue neg ipart frac → decimalValue neg ipart frac ≤ 9999 →
      clampValue neg ipart frac = (ipart, frac))

/-- The point (R126, R68): its index in the text is `neg + len(dec(ipart))`; it is accepted exactly when there is a
fraction and the index is at most 3; after the range policy the index is 1 to 4, and at least 2 for a negative value. -/
def Obligations.PointAcceptedExactlyInTheFirstFour : Prop :=
  ∀ (neg : Bool) (ipart : Nat) (frac : List Digit), ipart < 2 ^ 32 →
    pointIndex neg ipart = neg.toNat + (Nat.toDigits 10 ipart).length ∧
    (frac ≠ [] → (text neg ipart frac).idxOf '.' = pointIndex neg ipart) ∧
    (pointAccepted neg ipart frac = true ↔ frac ≠ [] ∧ pointIndex neg ipart ≤ 3) ∧
    (1 ≤ pointIndex neg (clampValue neg ipart frac).1 ∧ pointIndex neg (clampValue neg ipart frac).1 ≤ 4) ∧
    (neg = true → 2 ≤ pointIndex neg (clampValue neg ipart frac).1)

/-- Justification (R129): with RIGHT the characters end in slot 3 and the slots before them are blank; with LEFT they begin
in slot 0 and the slots after them are blank; four characters fill the slots in either mode. -/
def Obligations.JustificationPlacesTheCharacters : Prop :=
  ∀ (g : GlyphTable) (text : List GlyphChar), text.length ≤ 4 →
    (∀ just, (slotGlyphs g just text).length = 4) ∧
    (∀ j, j < 4 - text.length → (slotGlyphs g .right text)[j]? = some 0x00) ∧
    (∀ j, j < text.length → (slotGlyphs g .right text)[4 - text.length + j]? = text[j]?.map (glyph g)) ∧
    (∀ j, j < text.length → (slotGlyphs g .left text)[j]? = text[j]?.map (glyph g)) ∧
    (∀ j, text.length ≤ j → j < 4 → (slotGlyphs g .left text)[j]? = some 0x00)

/-- The decimal point (R130, R133): bit 7 of a slot's byte is set exactly on the point's slot, there is at most one such
slot, never slot 3, and it holds a digit of the integer part, never the minus sign. -/
def Obligations.PointBitMarksOneDigitSlot : Prop :=
  ∀ (g : GlyphTable) (just : Justification) (neg : Bool) (ipart : Nat) (frac : List Digit) (colon : Bool),
    ipart < 2 ^ 32 → let d := showNumber g just neg ipart frac colon
    (∀ j, j < 4 → ((d.slotByte j).getLsbD 7 = true ↔ d.decimalPointSlot = some j)) ∧
    (∀ j, d.decimalPointSlot = some j → j ≤ 2 ∧
      ∃ x, x ∈ dec (clampValue neg ipart frac).1 ∧ d.slotByte j = glyph g (.digit x) ||| 0x80)

/-- The layout (R131): exactly nine bytes, the pads zero, the colon byte at index 4, the slots at the even indexes around
it; the colon is honoured for every number, clamped or not, and for a blank. -/
def Obligations.NumericLayout : Prop :=
  (∀ (g : GlyphTable) (d : NumericDisplay), (d.bytes g).length = 9 ∧
    (d.bytes g)[0]? = some (d.slotByte 0) ∧ (d.bytes g)[2]? = some (d.slotByte 1) ∧
    (d.bytes g)[4]? = some (if d.colonOn then 0x02 else 0x00) ∧
    (d.bytes g)[6]? = some (d.slotByte 2) ∧ (d.bytes g)[8]? = some (d.slotByte 3) ∧
    ∀ k, k = 1 ∨ k = 3 ∨ k = 5 ∨ k = 7 → (d.bytes g)[k]? = some 0x00) ∧
  (∀ g just neg ipart frac colon, (showNumber g just neg ipart frac colon).colonOn = colon) ∧
  (∀ colon, (showBlank colon).colonOn = colon)

/-- SETJUST (R135): `op` 6; `JUST` takes the mode, nothing is sent, it cannot fail, and nothing else changes. -/
def Obligations.SetjustSetsTheMode : Prop :=
  (∀ p : Ports, p.op = 6 → decode p = .ok (.setjust (if p.mode then .left else .right))) ∧
  ∀ (mode : Justification) (s : State), exec (.setjust mode) s = .next { told s (done false) with just := mode }

/-- KEYSCAN (R150): `op` 7; one read of six bytes from `0x40`, the bytes returned untouched, whatever the quirk; a transport
error brings no data. -/
def Obligations.KeyscanReturnsTheBytesUntouched : Prop :=
  (∀ p : Ports, p.op = 7 → decode p = .ok .keyscan) ∧
  ∀ s : State,
    (∀ v, s.peek (.rd 0x40 6) = .reply (.ok v) →
      exec .keyscan s = .next (sent s (.rd 0x40 6) (.ok v) s.cfg { warn := false, error := .none, data := some v })) ∧
    (∀ e, s.peek (.rd 0x40 6) = .reply (.error e) →
      exec .keyscan s = .next (sent s (.rd 0x40 6) (.error e) s.cfg (failed false (.transportError e))))

/-! The whole machine. -/

/-- No operation is ever refused, and every operation completes where the transport answers, in every state and for all
operands: the one assumption R189 and U11 ask for. -/
def Obligations.EveryOperationCompletesWhereTheTransportAnswers : Prop :=
  ∀ (i : Instr) (s : State),
    (∀ x, exec i s ≠ .refused x) ∧ ((∀ t, s.Answers t) → ∃ t, exec i s = .next t)

/-- An operation fails to end only in front of a transport that never answers, and every operation that hands a
transaction over does so there, with that transaction handed over (R189, U11; log entry 6); SETJUST always ends. -/
def Obligations.OnlyASilentTransportHoldsAStep : Prop :=
  (∀ (i : Instr) (s : State) (f : Fault), exec i s = .fault f → ∃ t, f = .transportSilent t ∧ s.peek t = .silent) ∧
  (∀ (i : Instr) (s u : State) (t : Transaction) (r : Reply),
    exec i { s with draws := .reply r :: s.draws } = .next u → u.log = s.log ++ [⟨t, r⟩] →
    exec i { s with draws := .silent :: s.draws } = .fault (.transportSilent t)) ∧
  (∀ (mode : Justification) (s : State), ∃ t, exec (.setjust mode) s = .next t)

/-- The invariant holds of every constructed instance. -/
def Obligations.ConstructionMeetsTheInvariant : Prop := ∀ c : Config, (State.construct c).Inv

/-- Every step keeps the invariant: the mirror is what the log determines (R24), the log holds only the transactions the
block may produce (R72), errors and key-scan bytes are reported unchanged (R164, R150), and the interrupt fields are
coherent (R23). -/
def Obligations.StepKeepsTheInvariant : Prop :=
  ∀ s s' : State, s.Inv → step s = .next s' → s'.Inv

/-- Every operation appends: at most one transaction and exactly one result record (R12, R48, R50). It makes exactly one
transaction unless it is SETJUST or ends with an encoder-level error. -/
def Obligations.AtMostOneTransactionPerOperation : Prop :=
  ∀ (i : Instr) (s t : State), exec i s = .next t →
    (∃ r, t.results = s.results ++ [r]) ∧
    (t.trace = s.trace ∨ ∃ x, t.trace = s.trace ++ [x]) ∧
    (t.trace = s.trace ↔
      (∃ mode, i = .setjust mode) ∨ lastError t = some .invalidGeometry ∨ lastError t = some .invalidValueType)

/-- An encoder-level failure leaves no mark but its result record, whose warning is clear (R165). -/
def Obligations.EncoderFailureLeavesNoMark : Prop :=
  ∀ (i : Instr) (s t : State) (e : OpError), exec i s = .next t → lastError t = some e →
    (e = .invalidGeometry ∨ e = .invalidValueType) → t = told s (failed false e)

/-- The construction arguments are changed by no step (R25), and the host's other requests are only taken from the front
(R50). -/
def Obligations.ConfigurationNeverChanges : Prop :=
  ∀ s s' : State, step s = .next s' → s'.board = s.board ∧ s'.requests = s.requests.tail

/-- `JUST` is written by SETJUST alone (R22). -/
def Obligations.OnlySetjustWritesJust : Prop :=
  ∀ (i : Instr) (s t : State), exec i s = .next t → t.just ≠ s.just → ∃ mode, i = .setjust mode ∧ t.just = mode

/-- Each mirror field is written by its own command alone (R23, R24): PACK, NUM, SETJUST and KEYSCAN write none. -/
def Obligations.MirrorFieldsWrittenByTheirCommandsOnly : Prop :=
  ∀ (i : Instr) (s t : State), exec i s = .next t →
    (t.cfg.oscillatorOn ≠ s.cfg.oscillatorOn → ∃ on, i = .osc on) ∧
    (t.cfg.displayOn ≠ s.cfg.displayOn ∨ t.cfg.blinkRate ≠ s.cfg.blinkRate → ∃ on blink, i = .disp on blink) ∧
    (t.cfg.brightness ≠ s.cfg.brightness → ∃ nonint level, i = .bright nonint level) ∧
    (t.cfg.interruptEnabled ≠ s.cfg.interruptEnabled ∨ t.cfg.interruptActiveHigh ≠ s.cfg.interruptActiveHigh →
      ∃ enabled activeHigh, i = .int enabled activeHigh)

/-- What an operation sends, and what it reports for one answer of the transport, depend on its operands, the configuration
and `JUST` alone: not on the mirror, nor on anything that went before (R23, R27, R49, R85). -/
def Obligations.HistoryReachesNoTransaction : Prop :=
  ∀ (i : Instr) (s₁ s₂ t₁ t₂ : State), s₁.board = s₂.board → s₁.just = s₂.just →
    exec i s₁ = .next t₁ → exec i s₂ = .next t₂ →
    (∃ xs, t₁.trace = s₁.trace ++ xs ∧ t₂.trace = s₂.trace ++ xs) ∧
    ((∀ x, s₁.peek x = s₂.peek x) → ∃ r, t₁.results = s₁.results ++ [r] ∧ t₂.results = s₂.results ++ [r])

/-- Geometry and quirk reach PACK alone (R104, R136, R150): every other operation does the same on a board that differs in
them, its board apart. -/
def Obligations.GeometryAndQuirkReachPackAlone : Prop :=
  ∀ (i : Instr) (s t : State) (cols : Nat) (quirk : Bool), (∀ cells, i ≠ .pack cells) → exec i s = .next t →
    exec i { s with board := { s.board with cols := cols, quirk := quirk } }
      = .next { t with board := { t.board with cols := cols, quirk := quirk } }

/-- The warning is set exactly by a BRIGHT whose level was clamped (R161, R27): never by another operation, and it is in that
operation's record alone. -/
def Obligations.WarningExactlyFromAClampedBright : Prop :=
  ∀ (i : Instr) (s t : State), exec i s = .next t →
    (lastWarn t = some true ↔
      ∃ nonint level, i = .bright nonint level ∧ (nonint = true ∨ level.toInt < 0 ∨ 15 < level.toInt))

/-- A transport error is reported as it came (R164), by every operation that had one, and ends it with no data. -/
def Obligations.TransportErrorPropagatesUnchanged : Prop :=
  ∀ (i : Instr) (s t : State) (x : Transaction) (e : TransportErr),
    exec i s = .next t → t.log = s.log ++ [⟨x, .error e⟩] →
    ∃ w, t.results = s.results ++ [failed w (.transportError e)]

/-- Every command byte is told apart by the table of R71: its row gives the command and the fields sent. -/
def Obligations.CommandBytesReadBack : Prop :=
  (∀ on, readTransaction (.cmd (oscByte on)) = some (.oscillator on)) ∧
  (∀ on blink, readTransaction (.cmd (dispByte on blink)) = some (.display on blink)) ∧
  (∀ enabled activeHigh,
    readTransaction (.cmd (intByte enabled activeHigh)) = some (.interrupt enabled (enabled && activeHigh))) ∧
  (∀ n, n ≤ 15 → readTransaction (.cmd (brightByte n)) = some (.brightness (BitVec.ofNat 4 n)))

/-- Exactly the 29 command bytes of R72 are producible, and only writes to `0x00` of 16 or 9 bytes and the read of six from
`0x40` (R70, R72). -/
def Obligations.ProducibleTransactionsAreThoseListed : Prop :=
  (∀ b : Byte, producible (.cmd b) = true ↔
    b = 0x20 ∨ b = 0x21 ∨ (0x80 ≤ b ∧ b ≤ 0x87) ∨ b = 0xA0 ∨ b = 0xA1 ∨ b = 0xA3 ∨ 0xE0 ≤ b ∧ b ≤ 0xEF) ∧
  (∀ (a : Byte) (v : List Byte), producible (.wr a v) = true ↔ a = 0x00 ∧ (v.length = 16 ∨ v.length = 9)) ∧
  (∀ (a : Byte) (n : Nat), producible (.rd a n) = true ↔ a = 0x40 ∧ n = 6)

/-! The display RAM as the block's writes left it: a view derived by R44 (log entry 16), no state of the block. -/

/-- An answered PACK puts byte `a` of its buffer at address `a`, 0 to 15, and leaves every other address as it was; a PACK
the transport failed leaves the 16 addresses unknown (R44, R47, R48). -/
def Obligations.PackWritesTheDisplayRam : Prop :=
  ∀ (cells : List Bool) (s : State), ¬ badGeometry s.board cells.length →
    (∀ v, s.peek (.wr 0x00 (packBuffer s.board cells)) = .reply (.ok v) →
      ∃ t, exec (.pack cells) s = .next t ∧
        ∀ a, t.ramByte a = if a < 16 then (packBuffer s.board cells)[a]? else s.ramByte a) ∧
    (∀ e, s.peek (.wr 0x00 (packBuffer s.board cells)) = .reply (.error e) →
      ∃ t, exec (.pack cells) s = .next t ∧ ∀ a, t.ramByte a = if a < 16 then none else s.ramByte a)

/-- A NUM that is sent and answered fills addresses 0 to 8 with its nine bytes and leaves `0x09` and above as they were, so
a frame of PACK stays there; one the transport failed leaves addresses 0 to 8 unknown (R44, R47, R48, R186). -/
def Obligations.NumLeavesTheUpperDisplayRam : Prop :=
  ∀ (vkind : BitVec 2) (neg : Bool) (ipart : BitVec 32) (frac : List Digit) (colon : Bool) (s t : State)
    (x : Transaction), exec (.num vkind neg ipart frac colon) s = .next t →
    (∀ v, t.log = s.log ++ [⟨x, .ok v⟩] →
      ∃ bytes, x = .wr 0x00 bytes ∧ bytes.length = 9 ∧
        ∀ a, t.ramByte a = if a < 9 then bytes[a]? else s.ramByte a) ∧
    (∀ e, t.log = s.log ++ [⟨x, .error e⟩] → ∀ a, t.ramByte a = if a < 9 then none else s.ramByte a)

/-- Every operation that hands over no block write leaves every byte of the display RAM as it was: the commands, SETJUST,
KEYSCAN, and a PACK or NUM that fails in the encoder (R43, R165). -/
def Obligations.OnlyBlockWritesTouchTheDisplayRam : Prop :=
  ∀ (i : Instr) (s t : State), exec i s = .next t →
    (∃ a data, t.trace = s.trace ++ [.wr a data]) ∨ ∀ a, t.ramByte a = s.ramByte a

/-! Statements added after the first review. -/

/-- What PACK and NUM decode from their ports, the two operations whose operands are sequences (R66, R67). PACK, `op` 4:
`glen` cells, cell `k` being bit `k` of the port. NUM, `op` 5, with at most eight fraction digits and no code above 9
among them: the other ports as they are, and `fracCount` digits, digit `j` being nibble `j`, the lowest first. The
order of cells and digits on a port is the model's (log entry 8). -/
def Obligations.PackAndNumReadTheirPorts : Prop :=
  (∀ p : Ports, p.op = 4 → ∃ cells, decode p = .ok (.pack cells) ∧ cells.length = p.glen.toNat ∧
    ∀ k, k < p.glen.toNat → cells[k]? = some (p.cells.getLsbD k)) ∧
  (∀ p : Ports, p.op = 5 → p.fracCount.toNat ≤ 8 →
    (∀ j, j < p.fracCount.toNat → (p.fracDigits.extractLsb' (4 * j) 4).toNat ≤ 9) →
    ∃ frac, decode p = .ok (.num p.vkind p.neg p.ipart frac p.colon) ∧ frac.length = p.fracCount.toNat ∧
      ∀ j, j < p.fracCount.toNat → frac[j]?.map Fin.val = some (p.fracDigits.extractLsb' (4 * j) 4).toNat)

/-- The block rows of R71: a write to `0x00` of sixteen bytes is a PACK's and one of nine bytes a NUM's, with its bytes; a
read of six from `0x40` is the key-scan. And what PACK and NUM hand over is so read. -/
def Obligations.BlockTransactionsReadBack : Prop :=
  (∀ data : List Byte, data.length = 16 → readTransaction (.wr 0x00 data) = some (.matrixWrite data)) ∧
  (∀ data : List Byte, data.length = 9 → readTransaction (.wr 0x00 data) = some (.digitWrite data)) ∧
  readTransaction (.rd 0x40 6) = some .keyScanRead ∧
  (∀ (cells : List Bool) (s t : State) (x : Transaction), exec (.pack cells) s = .next t →
    t.trace = s.trace ++ [x] → readTransaction x = some (.matrixWrite (packBuffer s.board cells))) ∧
  (∀ (vkind : BitVec 2) (neg : Bool) (ipart : BitVec 32) (frac : List Digit) (colon : Bool) (s t : State)
    (x : Transaction), exec (.num vkind neg ipart frac colon) s = .next t → t.trace = s.trace ++ [x] →
    ∃ data, x = .wr 0x00 data ∧ readTransaction x = some (.digitWrite data)) ∧
  (∀ (s t : State) (x : Transaction), exec .keyscan s = .next t → t.trace = s.trace ++ [x] →
    readTransaction x = some .keyScanRead)
end

