-- ==== Sys2Proof/Laws/Device.lean ====
section
/-! SUPPORT. The derived view of display RAM: every operation keeps the canonical form, and a read after a write or a
forgetting gives what it should. -/

namespace Sys2Proof.Machine

theorem readByte_eq_none_of_forall_ne {m : Memory} {a : Nat} (h : ∀ c ∈ m, c.1 ≠ a) : m.readByte a = none := by
  induction m with
  | nil => rfl
  | cons c m ih =>
    have hc : c.1 ≠ a := h c (by simp)
    simp only [Memory.readByte, hc, if_false]
    exact ih fun d hd => h d (by simp [hd])

theorem readByte_append (m n : Memory) (a : Nat) : Memory.readByte (m ++ n) a = (m.readByte a).or (n.readByte a) := by
  induction m with
  | nil => simp [Memory.readByte]
  | cons c m ih => by_cases h : c.1 = a <;> simp [Memory.readByte, h, ih]

theorem readByte_filter {m : Memory} {a : Nat} (p : Host.Cell → Bool) (h : ∀ v, p (a, v) = true) :
    Memory.readByte (m.filter p) a = m.readByte a := by
  induction m with
  | nil => rfl
  | cons c m ih =>
    by_cases hp : p c = true
    · simp [List.filter, hp, Memory.readByte, ih]
    · have hc : c.1 ≠ a := by
        rintro rfl; exact hp (h c.2)
      simp [List.filter, hp, Memory.readByte, hc, ih]

theorem readByte_writeByte_same (m : Memory) (a : Nat) (v : Byte) : (m.writeByte a v).readByte a = some v := by
  have h : Memory.readByte (m.filter (fun c => c.1 < a)) a = none :=
    readByte_eq_none_of_forall_ne fun c hc => by simp at hc; omega
  simp [Memory.writeByte, readByte_append, h, Memory.readByte]

theorem readByte_writeByte_other (m : Memory) {a b : Nat} (v : Byte) (h : b ≠ a) :
    (m.writeByte a v).readByte b = m.readByte b := by
  rcases Nat.lt_or_gt_of_ne h with hlt | hgt
  · have h2 : Memory.readByte (m.filter (fun c => a < c.1)) b = none :=
      readByte_eq_none_of_forall_ne fun c hc => by simp at hc; omega
    simp [Memory.writeByte, readByte_append, Memory.readByte, h.symm, h2,
      readByte_filter (m := m) (a := b) (fun c => c.1 < a) (by simp [hlt])]
  · have h1 : Memory.readByte (m.filter (fun c => c.1 < a)) b = none :=
      readByte_eq_none_of_forall_ne fun c hc => by simp at hc; omega
    simp [Memory.writeByte, readByte_append, Memory.readByte, h.symm, h1,
      readByte_filter (m := m) (a := b) (fun c => a < c.1) (by simp [hgt])]

theorem readByte_forgetByte_same (m : Memory) (a : Nat) : (m.forgetByte a).readByte a = none :=
  readByte_eq_none_of_forall_ne fun c hc => by simp [Memory.forgetByte] at hc; exact hc.2

theorem readByte_forgetByte_other (m : Memory) {a b : Nat} (h : b ≠ a) :
    (m.forgetByte a).readByte b = m.readByte b :=
  readByte_filter _ (by simp [h])

theorem writeByte_wf {m : Memory} (h : m.wf) (a : Nat) (v : Byte) : (m.writeByte a v).wf := by
  simp only [Memory.wf, Memory.writeByte, List.pairwise_append, List.pairwise_cons, List.mem_cons]
  refine ⟨h.filter _, ⟨by simp, h.filter _⟩, ?_⟩
  rintro c hc d (rfl | hd)
  · simpa using (List.mem_filter.mp hc).2
  · have h1 := (List.mem_filter.mp hc).2
    have h2 := (List.mem_filter.mp hd).2
    simp at h1 h2; omega

theorem forgetByte_wf {m : Memory} (h : m.wf) (a : Nat) : (m.forgetByte a).wf := h.filter _

theorem writeBytes_wf {m : Memory} (h : m.wf) (a : Nat) (vs : List Byte) : (m.writeBytes a vs).wf := by
  induction vs generalizing m a with
  | nil => exact h
  | cons v vs ih => exact ih (writeByte_wf h a v) (a + 1)

theorem forgetBytes_wf {m : Memory} (h : m.wf) (a n : Nat) : (m.forgetBytes a n).wf := by
  induction n generalizing m a with
  | zero => exact h
  | succ n ih => exact ih (forgetByte_wf h a) (a + 1)

theorem afterExchange_wf {m : Memory} (h : m.wf) (x : Exchange) : (m.afterExchange x).wf := by
  unfold Memory.afterExchange
  split
  · exact writeBytes_wf h _ _
  · exact forgetBytes_wf h _ _
  · exact h
  · exact h

/-- The view is in canonical form whatever the log. -/
theorem displayRam_wf (log : List Exchange) : (displayRam log).wf := by
  unfold displayRam
  suffices H : ∀ m : Memory, m.wf → (log.foldl Memory.afterExchange m).wf from H [] List.Pairwise.nil
  induction log with
  | nil => exact fun m h => h
  | cons x log ih => exact fun m h => ih _ (afterExchange_wf h x)

theorem readByte_writeBytes (m : Memory) (a b : Nat) (vs : List Byte) :
    (m.writeBytes a vs).readByte b = if a ≤ b ∧ b < a + vs.length then vs[b - a]? else m.readByte b := by
  induction vs generalizing m a with
  | nil => simp [Memory.writeBytes]
  | cons v vs ih =>
    rw [Memory.writeBytes, ih]
    by_cases hb : b = a
    · subst hb; simp [readByte_writeByte_same]
    · rw [readByte_writeByte_other _ _ hb]
      by_cases hr : a + 1 ≤ b ∧ b < a + 1 + vs.length
      · have : b - a = (b - (a + 1)) + 1 := by omega
        rw [if_pos hr, if_pos (by simp; omega), this, List.getElem?_cons_succ]
      · rw [if_neg hr, if_neg (by simp; omega)]

theorem readByte_forgetBytes (m : Memory) (a b n : Nat) :
    (m.forgetBytes a n).readByte b = if a ≤ b ∧ b < a + n then none else m.readByte b := by
  induction n generalizing m a with
  | zero => simp [Memory.forgetBytes]
  | succ n ih =>
    rw [Memory.forgetBytes, ih]
    by_cases hb : b = a
    · subst hb; simp [readByte_forgetByte_same]
    · rw [readByte_forgetByte_other _ hb]
      by_cases hr : a + 1 ≤ b ∧ b < a + 1 + n
      · rw [if_pos hr, if_pos (by omega)]
      · rw [if_neg hr, if_neg (by omega)]

/-- One more exchange at the end of the log. -/
theorem displayRam_append (log : List Exchange) (x : Exchange) :
    displayRam (log ++ [x]) = (displayRam log).afterExchange x := by
  simp [displayRam, List.foldl_append]

end Sys2Proof.Machine
end

