-- ==== Sys2Proof/Laws/Operands.lean ====
section
/-! SUPPORT. The operands' small laws: port fields against their word, cells and digits against their numbers, the
length and value of `dec`. -/

namespace Sys2Proof

theorem testBit_of_field {w i : Nat} {x : Bool} (h : w / 2 ^ i % 2 = x.toNat) : w.testBit i = x := by
  rw [Nat.testBit_eq_decide_div_mod_eq, h]; cases x <;> decide

theorem decodeCells_encodeCells (cells : List Bool) : decodeCells cells.length (encodeCells cells) = cells := by
  induction cells with
  | nil => rfl
  | cons b bs ih =>
    have h1 : (b.toNat + 2 * encodeCells bs) / 2 = encodeCells bs := by cases b <;> simp; omega
    have h2 : decide ((b.toNat + 2 * encodeCells bs) % 2 = 1) = b := by cases b <;> simp
    simp only [List.length_cons, decodeCells, encodeCells, h1, h2, ih]

theorem encodeCells_lt (cells : List Bool) : encodeCells cells < 2 ^ cells.length := by
  induction cells with
  | nil => decide
  | cons b bs ih => cases b <;> simp [encodeCells, Nat.pow_succ] <;> omega

theorem decodeDigits_encodeDigits (ds : List Digit) : decodeDigits ds.length (encodeDigits ds) = .ok ds := by
  induction ds with
  | nil => rfl
  | cons d ds ih =>
    have h1 : (d.val + 16 * encodeDigits ds) % 16 = d.val := by omega
    have h2 : (d.val + 16 * encodeDigits ds) / 16 = encodeDigits ds := by omega
    simp [decodeDigits, encodeDigits, h1, h2, ih]

theorem encodeDigits_lt (ds : List Digit) : encodeDigits ds < 16 ^ ds.length := by
  induction ds with
  | nil => decide
  | cons d ds ih => simp only [List.length_cons, encodeDigits, Nat.pow_succ]; omega

theorem decodeCells_length (n v : Nat) : (decodeCells n v).length = n := by
  induction n generalizing v with
  | zero => rfl
  | succ n ih => simp [decodeCells, ih]

theorem decodeDigits_length {n v : Nat} {ds : List Digit} (h : decodeDigits n v = .ok ds) : ds.length = n := by
  induction n generalizing v ds with
  | zero => cases h; rfl
  | succ n ih =>
    simp only [decodeDigits] at h
    split at h
    · split at h
      · rename_i ds' hd; cases h; simp [ih hd]
      · cases h
    · cases h

/-- Cell `k` is bit `k` of the port (R66). -/
theorem decodeCells_getElem? {n k : Nat} (v : Nat) (h : k < n) : (decodeCells n v)[k]? = some (v.testBit k) := by
  induction n generalizing v k with
  | zero => omega
  | succ n ih =>
    cases k with
    | zero => simp [decodeCells, Nat.testBit_zero]
    | succ k => simp [decodeCells, ih (v / 2) (by omega : k < n), Nat.testBit_succ]

/-- Where no code is above 9 the digits are the nibbles, the lowest first (R67). -/
theorem decodeDigits_ok {n v : Nat} (h : ∀ j, j < n → v / 16 ^ j % 16 ≤ 9) :
    ∃ ds, decodeDigits n v = .ok ds ∧ ∀ j, j < n → ds[j]?.map Fin.val = some (v / 16 ^ j % 16) := by
  induction n generalizing v with
  | zero => exact ⟨[], rfl, by omega⟩
  | succ n ih =>
    have h0 : v % 16 < 10 := by have := h 0 (by omega); simp at this; omega
    have hs (j : Nat) : v / 16 / 16 ^ j = v / 16 ^ (j + 1) := by
      rw [Nat.div_div_eq_div_mul, Nat.pow_succ, Nat.mul_comm]
    obtain ⟨ds, hd, hv⟩ := ih (v := v / 16) (fun j hj => by rw [hs]; exact h (j + 1) (by omega))
    refine ⟨⟨v % 16, h0⟩ :: ds, by simp [decodeDigits, h0, hd], fun j hj => ?_⟩
    cases j with
    | zero => simp
    | succ j => simpa [hs] using hv j (by omega)

/-- No bit of a port is lost in the word: reading the ports a word was made of gives them back (log entry 8). -/
theorem portsOfWord_wordOfPorts (p : Ports) : portsOfWord (wordOfPorts p) = p := by
  have h1 := p.op.isLt; have h2 := p.blink.isLt; have h3 := p.level.isLt; have h4 := p.vkind.isLt
  have h5 := p.ipart.isLt; have h6 := p.fracCount.isLt; have h7 := p.fracDigits.isLt; have h8 := p.glen.isLt
  have h9 := p.cells.isLt
  have b (x : Bool) : x.toNat < 2 := by cases x <;> decide
  have c1 := b p.on; have c2 := b p.nonint; have c3 := b p.enabled; have c4 := b p.activeHigh
  have c5 := b p.neg; have c6 := b p.colon; have c7 := b p.mode
  obtain ⟨⟩ := p
  simp only [portsOfWord, Ports.mk.injEq, wordField, wordBit]
  refine ⟨?_, ?_, ?_, ?_, ?_, ?_, ?_, ?_, ?_, ?_, ?_, ?_, ?_, ?_, ?_, ?_⟩
  all_goals first
    | (apply testBit_of_field; simp only [wordOfPorts] at *; omega)
    | (apply BitVec.eq_of_toNat_eq
       simp only [wordOfPorts, BitVec.toNat_ofNat, Nat.shiftRight_eq_div_pow] at *; omega)

namespace Machine

/-- The clamped level is a level (R65, R73(c)). -/
theorem clampBrightness_le (nonint : Bool) (level : Int) : clampBrightness nonint level ≤ 15 := by
  unfold clampBrightness maxBrightness
  split
  · omega
  · split
    · omega
    · split
      · omega
      · simp at *; omega

/-- The digits `decFrom` writes are Lean's own decimal digits. -/
theorem decFrom_toDigits (k n : Nat) (acc : List Digit) (h : n < 10 ^ k) (hk : 0 < k) :
    (decFrom k n acc).map digitChar = Nat.toDigits 10 n ++ acc.map digitChar := by
  induction k generalizing n acc with
  | zero => omega
  | succ k ih =>
    simp only [decFrom]
    split
    · rename_i hn; simp [Nat.toDigits_of_lt_base hn, digitChar]
    · rename_i hn
      have hk : 0 < k := by
        rcases k with _ | k
        · simp at h; omega
        · omega
      rw [ih (n / 10) _ (by rw [Nat.pow_succ] at h; omega) hk, Nat.toDigits_of_base_le (by decide) (by omega : 10 ≤ n)]
      simp [digitChar]

/-- `dec` agrees with Lean's own decimal printing on every number a port carries (R68). -/
theorem dec_toDigits (n : Nat) (h : n < 10 ^ 10) : (dec n).map digitChar = Nat.toDigits 10 n := by
  have := decFrom_toDigits 10 n [] h (by decide)
  simpa [dec] using this

theorem decFrom_length_pos (k n : Nat) (acc : List Digit) (h : 0 < k + acc.length) :
    1 ≤ (decFrom k n acc).length := by
  induction k generalizing n acc with
  | zero => simp [decFrom]; omega
  | succ k ih =>
    simp only [decFrom]
    split
    · simp
    · exact ih _ _ (by simp)

theorem decFrom_length_le (k n : Nat) (acc : List Digit) (m : Nat) (h : n < 10 ^ m) (hm : 0 < m) :
    (decFrom k n acc).length ≤ m + acc.length := by
  induction k generalizing n acc m with
  | zero => simp [decFrom]
  | succ k ih =>
    simp only [decFrom]
    split
    · simp; omega
    · rename_i hn
      obtain ⟨m, rfl⟩ : ∃ m', m = m' + 1 := ⟨m - 1, by omega⟩
      rw [Nat.pow_succ] at h
      have hm' : 0 < m := by
        rcases m with _ | m
        · simp at h; omega
        · omega
      have := ih (n / 10) (⟨n % 10, Nat.mod_lt n (by decide)⟩ :: acc) m (by omega) hm'
      simp at this; omega

/-- A number has a digit, and at most as many as its size allows. -/
theorem dec_length_pos (n : Nat) : 1 ≤ (dec n).length := decFrom_length_pos 10 n [] (by decide)

theorem dec_length_le {n m : Nat} (h : n < 10 ^ m) (hm : 0 < m) : (dec n).length ≤ m := by
  simpa [dec] using decFrom_length_le 10 n [] m h hm

/-- After the range policy a value fits four characters, a negative one three digits (R125). -/
theorem clampValue_le (neg : Bool) (ipart : Nat) (frac : List Digit) :
    (clampValue neg ipart frac).1 ≤ 9999 ∧ (neg = true → (clampValue neg ipart frac).1 ≤ 999) := by
  unfold clampValue maxShown minShown
  cases neg <;> simp <;> split <;> simp_all; omega

/-- The index of the point (R68): the sign counted. -/
theorem pointIndex_eq (neg : Bool) (ipart : Nat) : pointIndex neg ipart = neg.toNat + (dec ipart).length := by
  cases neg <;> simp [pointIndex, integerText]; omega

end Machine

end Sys2Proof
end

