-- ==== Sys2Proof/Laws/State.lean ====
section
/-! SUPPORT. One lemma for each field of the state after each update, so that no proof unfolds a record update. -/

namespace Sys2Proof.Machine

@[simp] theorem handOver_board (t : Transaction) (r : Reply) (s : State) : (s.handOver t r).board = s.board := rfl

@[simp] theorem handOver_just (t : Transaction) (r : Reply) (s : State) : (s.handOver t r).just = s.just := rfl

@[simp] theorem handOver_cfg (t : Transaction) (r : Reply) (s : State) : (s.handOver t r).cfg = s.cfg := rfl

@[simp] theorem handOver_requests (t : Transaction) (r : Reply) (s : State) : (s.handOver t r).requests = s.requests := rfl

@[simp] theorem handOver_draws (t : Transaction) (r : Reply) (s : State) : (s.handOver t r).draws = s.draws.tail := rfl

@[simp] theorem handOver_log (t : Transaction) (r : Reply) (s : State) : (s.handOver t r).log = s.log ++ [{ sent := t, reply := r }] := rfl

@[simp] theorem handOver_results (t : Transaction) (r : Reply) (s : State) : (s.handOver t r).results = s.results := rfl

@[simp] theorem report_board (r : OpResult) (s : State) : (s.report r).board = s.board := rfl

@[simp] theorem report_just (r : OpResult) (s : State) : (s.report r).just = s.just := rfl

@[simp] theorem report_cfg (r : OpResult) (s : State) : (s.report r).cfg = s.cfg := rfl

@[simp] theorem report_requests (r : OpResult) (s : State) : (s.report r).requests = s.requests := rfl

@[simp] theorem report_draws (r : OpResult) (s : State) : (s.report r).draws = s.draws := rfl

@[simp] theorem report_log (r : OpResult) (s : State) : (s.report r).log = s.log := rfl

@[simp] theorem report_results (r : OpResult) (s : State) : (s.report r).results = s.results ++ [r] := rfl

@[simp] theorem finish_board (w : Bool) (d : Option (Vector Byte 6)) (s : State) : (s.finish w d).board = s.board := rfl

@[simp] theorem finish_just (w : Bool) (d : Option (Vector Byte 6)) (s : State) : (s.finish w d).just = s.just := rfl

@[simp] theorem finish_cfg (w : Bool) (d : Option (Vector Byte 6)) (s : State) : (s.finish w d).cfg = s.cfg := rfl

@[simp] theorem finish_requests (w : Bool) (d : Option (Vector Byte 6)) (s : State) : (s.finish w d).requests = s.requests := rfl

@[simp] theorem finish_draws (w : Bool) (d : Option (Vector Byte 6)) (s : State) : (s.finish w d).draws = s.draws := rfl

@[simp] theorem finish_log (w : Bool) (d : Option (Vector Byte 6)) (s : State) : (s.finish w d).log = s.log := rfl

@[simp] theorem finish_results (w : Bool) (d : Option (Vector Byte 6)) (s : State) : (s.finish w d).results = s.results ++ [{ warn := w, error := .none, data := d }] := rfl

@[simp] theorem raiseError_board (w : Bool) (e : OpError) (s : State) : (s.raiseError w e).board = s.board := rfl

@[simp] theorem raiseError_just (w : Bool) (e : OpError) (s : State) : (s.raiseError w e).just = s.just := rfl

@[simp] theorem raiseError_cfg (w : Bool) (e : OpError) (s : State) : (s.raiseError w e).cfg = s.cfg := rfl

@[simp] theorem raiseError_requests (w : Bool) (e : OpError) (s : State) : (s.raiseError w e).requests = s.requests := rfl

@[simp] theorem raiseError_draws (w : Bool) (e : OpError) (s : State) : (s.raiseError w e).draws = s.draws := rfl

@[simp] theorem raiseError_log (w : Bool) (e : OpError) (s : State) : (s.raiseError w e).log = s.log := rfl

@[simp] theorem raiseError_results (w : Bool) (e : OpError) (s : State) : (s.raiseError w e).results = s.results ++ [{ warn := w, error := e, data := none }] := rfl

@[simp] theorem withFetchWord_board (n w : Nat) (s : State) : (s.withFetchWord n w).board = s.board := rfl

@[simp] theorem withFetchWord_just (n w : Nat) (s : State) : (s.withFetchWord n w).just = s.just := rfl

@[simp] theorem withFetchWord_cfg (n w : Nat) (s : State) : (s.withFetchWord n w).cfg = s.cfg := rfl

@[simp] theorem withFetchWord_requests (n w : Nat) (s : State) : (s.withFetchWord n w).requests = tableWordPorts n w :: s.requests := rfl

@[simp] theorem withFetchWord_draws (n w : Nat) (s : State) : (s.withFetchWord n w).draws = s.draws := rfl

@[simp] theorem withFetchWord_log (n w : Nat) (s : State) : (s.withFetchWord n w).log = s.log := rfl

@[simp] theorem withFetchWord_results (n w : Nat) (s : State) : (s.withFetchWord n w).results = s.results := rfl

@[simp] theorem construct_board (c : Config) : (State.construct c).board = c := rfl

@[simp] theorem construct_just (c : Config) : (State.construct c).just = Justification.right := rfl

@[simp] theorem construct_cfg (c : Config) : (State.construct c).cfg = Mirror.unknown := rfl

@[simp] theorem construct_requests (c : Config) : (State.construct c).requests = [] := rfl

@[simp] theorem construct_draws (c : Config) : (State.construct c).draws = [] := rfl

@[simp] theorem construct_log (c : Config) : (State.construct c).log = [] := rfl

@[simp] theorem construct_results (c : Config) : (State.construct c).results = [] := rfl

theorem reset_eq_construct : State.reset = State.construct defaultBoard := rfl

@[simp] theorem answered_ok (k : CommandKind) (b : Byte) (v : Vector Byte 6) (m : Mirror) :
    m.answered k b (.ok v) = m.record k b := rfl

@[simp] theorem answered_error (k : CommandKind) (b : Byte) (e : TransportErr) (m : Mirror) :
    m.answered k b (.error e) = m.forget k := rfl

/-- The answer with which `peek` answers is the head of the scripted draws, where there is one. -/
theorem peek_cons (s : State) (t : Transaction) (d : Draw) (ds : List Draw) (h : s.draws = d :: ds) : s.peek t = d := by
  simp [State.peek, h]

/-- With no scripted draw the transport answers, and the answer is the free one. -/
theorem peek_nil (s : State) (t : Transaction) (h : s.draws = []) :
    s.peek t = .reply (Config.freeReply s.log.length t) := by
  simp [State.peek, h]

end Sys2Proof.Machine
end

