-- ==== Sys2Proof/Laws/Ops.lean ====
section
/-! SUPPORT. What each shared operation can do, said once: its outcome where the transport answers and where it does
not, and its inversion. The provers cite these and do not unfold the operations. -/

namespace Sys2Proof.Machine

/-! The fields of each record. -/

@[simp] theorem returnRecord_warn (w : Bool) (d : Option (Vector Byte 6)) : (returnRecord w d).warn = w := rfl
@[simp] theorem returnRecord_error (w : Bool) (d : Option (Vector Byte 6)) : (returnRecord w d).error = .none := rfl
@[simp] theorem returnRecord_data (w : Bool) (d : Option (Vector Byte 6)) : (returnRecord w d).data = d := rfl
@[simp] theorem errorRecord_warn (w : Bool) (e : OpError) : (errorRecord w e).warn = w := rfl
@[simp] theorem errorRecord_error (w : Bool) (e : OpError) : (errorRecord w e).error = e := rfl
@[simp] theorem errorRecord_data (w : Bool) (e : OpError) : (errorRecord w e).data = none := rfl

/-- What an answered command or block write reports for each answer. -/
theorem replyRecord_ok (w : Bool) (v : Vector Byte 6) :
    replyRecord w (.ok v) = { warn := w, error := .none, data := none } := rfl
theorem replyRecord_err (w : Bool) (e : TransportErr) :
    replyRecord w (.error e) = { warn := w, error := .transportError e, data := none } := rfl

/-- What an answered block read reports for each answer. -/
theorem readRecord_ok (v : Vector Byte 6) :
    readRecord (.ok v) = { warn := false, error := .none, data := some v } := rfl
theorem readRecord_err (e : TransportErr) :
    readRecord (.error e) = { warn := false, error := .transportError e, data := none } := rfl

theorem transact_answers {t : Transaction} {k : Reply → State → State} {s : State} {r : Reply}
    (h : s.peek t = .reply r) : transact t k s = .next (k r (s.handOver t r)) := by
  simp [transact, h]

theorem transact_silent {t : Transaction} {k : Reply → State → State} {s : State} (h : s.peek t = .silent) :
    transact t k s = .fault (.transportSilent t) := by
  simp [transact, h]

/-- All a transaction can lead to: the transport answers, and the continuation has run; or it is silent. -/
theorem transact_cases (t : Transaction) (k : Reply → State → State) (s : State) :
    (∃ r, s.peek t = .reply r ∧ transact t k s = .next (k r (s.handOver t r))) ∨
    (s.peek t = .silent ∧ transact t k s = .fault (.transportSilent t)) := by
  cases h : s.peek t with
  | reply r => exact .inl ⟨r, rfl, transact_answers h⟩
  | silent => exact .inr ⟨rfl, transact_silent h⟩

theorem transact_next {t : Transaction} {k : Reply → State → State} {s s' : State} (h : transact t k s = .next s') :
    ∃ r, s.peek t = .reply r ∧ s' = k r (s.handOver t r) := by
  obtain ⟨r, hr, e⟩ | ⟨-, e⟩ := transact_cases t k s
  · exact ⟨r, hr, by rw [e] at h; exact (Host.Outcome.next.inj h).symm⟩
  · rw [e] at h; nomatch h

/-- A transaction is never refused. -/
theorem transact_not_refused {t : Transaction} {k : Reply → State → State} {s : State} {x : Refusal} :
    transact t k s ≠ .refused x := by
  obtain ⟨r, -, e⟩ | ⟨-, e⟩ := transact_cases t k s <;> rw [e] <;> exact nofun

theorem command_answers {k : CommandKind} {b : Byte} {w : Bool} {s : State} {r : Reply}
    (h : s.peek (.cmd b) = .reply r) :
    command k b w s =
      .next (State.report (replyRecord w r) { s.handOver (.cmd b) r with cfg := s.cfg.answered k b r }) := by
  rw [command, transact_answers h]; rfl

theorem command_silent {k : CommandKind} {b : Byte} {w : Bool} {s : State} (h : s.peek (.cmd b) = .silent) :
    command k b w s = .fault (.transportSilent (.cmd b)) := transact_silent h

theorem command_next {k : CommandKind} {b : Byte} {w : Bool} {s s' : State} (h : command k b w s = .next s') :
    ∃ r, s.peek (.cmd b) = .reply r ∧
      s' = State.report (replyRecord w r) { s.handOver (.cmd b) r with cfg := s.cfg.answered k b r } := by
  obtain ⟨r, hr, -⟩ := transact_next h
  exact ⟨r, hr, by rw [command_answers hr] at h; exact (Host.Outcome.next.inj h).symm⟩

theorem writeBlock_answers {a : Byte} {v : List Byte} {s : State} {r : Reply} (h : s.peek (.wr a v) = .reply r) :
    writeBlock a v s = .next ((s.handOver (.wr a v) r).report (replyRecord false r)) := by
  rw [writeBlock, transact_answers h]

theorem writeBlock_silent {a : Byte} {v : List Byte} {s : State} (h : s.peek (.wr a v) = .silent) :
    writeBlock a v s = .fault (.transportSilent (.wr a v)) := transact_silent h

theorem writeBlock_next {a : Byte} {v : List Byte} {s s' : State} (h : writeBlock a v s = .next s') :
    ∃ r, s.peek (.wr a v) = .reply r ∧ s' = (s.handOver (.wr a v) r).report (replyRecord false r) := by
  obtain ⟨r, hr, -⟩ := transact_next h
  exact ⟨r, hr, by rw [writeBlock_answers hr] at h; exact (Host.Outcome.next.inj h).symm⟩

theorem readBlock_answers {a : Byte} {n : Nat} {s : State} {r : Reply} (h : s.peek (.rd a n) = .reply r) :
    readBlock a n s = .next ((s.handOver (.rd a n) r).report (readRecord r)) := by
  rw [readBlock, transact_answers h]

theorem readBlock_silent {a : Byte} {n : Nat} {s : State} (h : s.peek (.rd a n) = .silent) :
    readBlock a n s = .fault (.transportSilent (.rd a n)) := transact_silent h

theorem readBlock_next {a : Byte} {n : Nat} {s s' : State} (h : readBlock a n s = .next s') :
    ∃ r, s.peek (.rd a n) = .reply r ∧ s' = (s.handOver (.rd a n) r).report (readRecord r) := by
  obtain ⟨r, hr, -⟩ := transact_next h
  exact ⟨r, hr, by rw [readBlock_answers hr] at h; exact (Host.Outcome.next.inj h).symm⟩

/-- All a step can do: wait, run the decoded request with it taken off the list, or refuse it. -/
theorem step_cases (s : State) :
    (s.requests = [] ∧ step s = .next s) ∨
    (∃ p rest i, s.requests = p :: rest ∧ decode p = .ok i ∧ step s = exec i { s with requests := rest }) ∨
    (∃ p rest e, s.requests = p :: rest ∧ decode p = .error e ∧ step s = .refused (.malformedRequest e)) := by
  cases hr : s.requests with
  | nil => exact .inl ⟨rfl, by simp [step, hr]⟩
  | cons p rest =>
    cases hd : decode p with
    | ok i => exact .inr (.inl ⟨p, rest, i, rfl, hd, by simp [step, hr, hd]⟩)
    | error e => exact .inr (.inr ⟨p, rest, e, rfl, hd, by simp [step, hr, hd, refuseRequest]⟩)

/-- A rotation, bit by bit (R7). -/
theorem ror8_getLsbD (b : Byte) (i : Nat) (h : i < 8) : (ror8 b).getLsbD i = b.getLsbD ((i + 1) % 8) := by
  revert b; interval_cases i <;> decide

end Sys2Proof.Machine
end

