-- ==== Sys2Proof/Laws/Packer.lean ====
section
/-! SUPPORT. The packer's spec lemmas: the bits of a packed byte, the bytes of the rows, the buffer's length. -/

namespace Sys2Proof.Machine

theorem bitByte_getElem : ∀ (b : Bool) (i : Fin 8), (bitByte b)[i.val] = (decide (i.val = 0) && b) := by decide

/-- Bit `i` of a packed byte is cell `base + i` (R103). -/
theorem packByte_getLsbD (cells : List Bool) (base i : Nat) (hi : i < 8) :
    (packByte cells base).getLsbD i = cellAt cells (base + i) := by
  have hb (b : Bool) (i : Nat) (h : i < 8) : (bitByte b)[i] = (decide (i = 0) && b) := bitByte_getElem b ⟨i, h⟩
  simp only [packByte, List.range, List.range.loop, List.foldl, BitVec.getLsbD_or]
  interval_cases i <;> simp [hb]

/-- The two bytes of row `r` in the unrotated buffer (R103). -/
theorem packRows_getElem? (cols : Nat) (cells : List Bool) (r : Nat) (hr : r < 8) :
    (packRows cols cells)[2 * r]? = some (packByte cells (r * cols)) ∧
    (packRows cols cells)[2 * r + 1]? = some (if cols = 16 then packByte cells (r * cols + 8) else 0x00) := by
  interval_cases r <;> exact ⟨rfl, rfl⟩

theorem packRows_length (cols : Nat) (cells : List Bool) : (packRows cols cells).length = 16 := rfl

theorem packBuffer_length (c : Config) (cells : List Bool) : (packBuffer c cells).length = 16 := by
  unfold packBuffer applyQuirk
  split
  · rw [List.length_map, packRows_length]
  · exact packRows_length _ _

theorem cellAt_getElem? {cells : List Bool} {k : Nat} (h : k < cells.length) : cells[k]? = some (cellAt cells k) := by
  simp [cellAt, h]

/-- The geometry check passes exactly on a supported column count and a grid of the right length (R102). -/
theorem geometryOk_iff (c : Config) (glen : Nat) :
    geometryOk c glen = true ↔ (c.cols = 8 ∨ c.cols = 16) ∧ glen = c.cols * 8 := by
  simp [geometryOk, Config.rows]

end Sys2Proof.Machine
end

