-- ==== Sys2Proof/Laws/Exec.lean ====
section
/-! SUPPORT. All an operation can do, said once (R11, R48): it makes a command, a block write or a read and reports the
answer; or it fails in the encoder; or it sets the mode. Everything about `exec` that does not name one instruction's
bytes follows from `exec_cases`. -/

namespace Sys2Proof.Machine

/-- Which command operation hands over byte `b` of kind `k` with warning `w`. -/
def CommandOf (i : Instr) (k : CommandKind) (b : Byte) (w : Bool) : Prop :=
  (∃ on, i = .osc on ∧ k = .oscillator ∧ w = false ∧ b = oscByte on) ∨
  (∃ on blink, i = .disp on blink ∧ k = .display ∧ w = false ∧ b = dispByte on blink) ∨
  (∃ nonint level, i = .bright nonint level ∧ k = .brightness ∧ w = invalidBrightness nonint level.toInt ∧
    b = brightByte (clampBrightness nonint level.toInt)) ∨
  (∃ enabled activeHigh, i = .int enabled activeHigh ∧ k = .interrupt ∧ w = false ∧ b = intByte enabled activeHigh)

/-- Which operation, in state `s`, hands over the block write of `v`. -/
def WriteOf (i : Instr) (s : State) (v : List Byte) : Prop :=
  (∃ cells, i = .pack cells ∧ geometryOk s.board cells.length = true ∧ v = packBuffer s.board cells) ∨
  (∃ vkind neg ipart frac colon, i = .num vkind neg ipart frac colon ∧ v.length = 9 ∧
    ((valueKind vkind = .blank ∧ v = (showBlank colon).bytes s.board.glyphs) ∨
     (valueKind vkind = .numeric ∧
        v = (showNumber s.board.glyphs s.just neg ipart.toNat frac colon).bytes s.board.glyphs)))

theorem commandKind_oscByte : ∀ on, commandKind (oscByte on) = some .oscillator ∧ oscByte on ≠ 0xA2 := by decide

theorem commandKind_dispByte : ∀ on blink, commandKind (dispByte on blink) = some .display ∧ dispByte on blink ≠ 0xA2 := by
  decide

theorem commandKind_intByte : ∀ e a, commandKind (intByte e a) = some .interrupt ∧ intByte e a ≠ 0xA2 := by decide

theorem commandKind_brightByte {n : Nat} (h : n ≤ 15) :
    commandKind (brightByte n) = some .brightness ∧ brightByte n ≠ 0xA2 := by
  interval_cases n <;> decide

/-- A command operation's byte is one of its command's, and never `0xA2` (R71, R72). -/
theorem CommandOf.kind {i : Instr} {k : CommandKind} {b : Byte} {w : Bool} (h : CommandOf i k b w) :
    commandKind b = some k ∧ b ≠ 0xA2 := by
  rcases h with ⟨on, -, rfl, -, rfl⟩ | ⟨on, x, -, rfl, -, rfl⟩ | ⟨n, l, -, rfl, -, rfl⟩ | ⟨e, a, -, rfl, -, rfl⟩
  · exact commandKind_oscByte on
  · exact commandKind_dispByte on x
  · exact commandKind_brightByte (clampBrightness_le n l.toInt)
  · exact commandKind_intByte e a

/-- All an operation that answers next can have done. -/
theorem exec_cases {i : Instr} {s t : State} (h : exec i s = .next t) :
    (∃ k b w r, CommandOf i k b w ∧ s.peek (.cmd b) = .reply r ∧
      t = State.report (replyRecord w r) { s.handOver (.cmd b) r with cfg := s.cfg.answered k b r }) ∨
    (∃ v r, WriteOf i s v ∧ s.peek (.wr 0x00 v) = .reply r ∧
      t = (s.handOver (.wr 0x00 v) r).report (replyRecord false r)) ∨
    (∃ r, i = .keyscan ∧ s.peek (.rd 0x40 6) = .reply r ∧ t = (s.handOver (.rd 0x40 6) r).report (readRecord r)) ∨
    (∃ cells, i = .pack cells ∧ geometryOk s.board cells.length = false ∧ t = s.raiseError false .invalidGeometry) ∨
    (∃ vkind neg ipart frac colon, i = .num vkind neg ipart frac colon ∧ valueKind vkind = .nonNumeric ∧
      t = s.raiseError false .invalidValueType) ∨
    (∃ mode, i = .setjust mode ∧ t = ({ s with just := mode } : State).finish false none) := by
  cases i with
  | osc on =>
    obtain ⟨r, hr, e⟩ := command_next h
    exact .inl ⟨_, _, _, r, .inl ⟨on, rfl, rfl, rfl, rfl⟩, hr, e⟩
  | disp on blink =>
    obtain ⟨r, hr, e⟩ := command_next h
    exact .inl ⟨_, _, _, r, .inr (.inl ⟨on, blink, rfl, rfl, rfl, rfl⟩), hr, e⟩
  | bright nonint level =>
    obtain ⟨r, hr, e⟩ := command_next h
    exact .inl ⟨_, _, _, r, .inr (.inr (.inl ⟨nonint, level, rfl, rfl, rfl, rfl⟩)), hr, e⟩
  | int enabled activeHigh =>
    obtain ⟨r, hr, e⟩ := command_next h
    exact .inl ⟨_, _, _, r, .inr (.inr (.inr ⟨enabled, activeHigh, rfl, rfl, rfl, rfl⟩)), hr, e⟩
  | pack cells =>
    simp only [exec, execPack] at h
    split at h
    · rename_i hg
      obtain ⟨r, hr, e⟩ := writeBlock_next h
      exact .inr (.inl ⟨_, r, .inl ⟨cells, rfl, hg, rfl⟩, hr, e⟩)
    · rename_i hg
      exact .inr (.inr (.inr (.inl ⟨cells, rfl, by simpa using hg, (Host.Outcome.next.inj h).symm⟩)))
  | num vkind neg ipart frac colon =>
    simp only [exec, execNum] at h
    split at h
    · rename_i hv
      exact .inr (.inr (.inr (.inr (.inl ⟨_, _, _, _, _, rfl, hv, (Host.Outcome.next.inj h).symm⟩))))
    · rename_i hv
      obtain ⟨r, hr, e⟩ := writeBlock_next h
      exact .inr (.inl ⟨_, r, .inr ⟨_, _, _, _, _, rfl, rfl, .inl ⟨hv, rfl⟩⟩, hr, e⟩)
    · rename_i hv
      obtain ⟨r, hr, e⟩ := writeBlock_next h
      exact .inr (.inl ⟨_, r, .inr ⟨_, _, _, _, _, rfl, rfl, .inr ⟨hv, rfl⟩⟩, hr, e⟩)
  | setjust mode => exact .inr (.inr (.inr (.inr (.inr ⟨mode, rfl, (Host.Outcome.next.inj h).symm⟩))))
  | keyscan =>
    obtain ⟨r, hr, e⟩ := readBlock_next h
    exact .inr (.inr (.inl ⟨r, rfl, hr, e⟩))

/-- The buffer of a block write has 16 or 9 bytes (R47). -/
theorem WriteOf.length {i : Instr} {s : State} {v : List Byte} (h : WriteOf i s v) : v.length = 16 ∨ v.length = 9 := by
  rcases h with ⟨cells, -, -, rfl⟩ | ⟨_, _, _, _, _, -, h, -⟩
  · exact .inl (packBuffer_length _ _)
  · exact .inr h

end Sys2Proof.Machine
end

