-- ==== Sys2Proof/Laws/PerInstr.lean ====
section
/-! SUPPORT. What is proved of every instruction as syntax, one lemma a constructor. -/

namespace Sys2Proof.Laws

/-- The operation select of an instruction (R60). -/
def opSelect : Instr → BitVec 3
  | .osc _ => 0
  | .disp _ _ => 1
  | .bright _ _ => 2
  | .int _ _ => 3
  | .pack _ => 4
  | .num _ _ _ _ _ => 5
  | .setjust _ => 6
  | .keyscan => 7

/-- The encoder drives the `op` port with the number R60 gives the operation. -/
def OpSelect.Statement (i : Instr) : Prop := (encode i).op = opSelect i

theorem OpSelect.osc (on : Bool) : OpSelect.Statement (.osc on) := rfl

theorem OpSelect.disp (on : Bool) (blink : BitVec 2) : OpSelect.Statement (.disp on blink) := rfl

theorem OpSelect.bright (nonint : Bool) (level : BitVec 16) : OpSelect.Statement (.bright nonint level) := rfl

theorem OpSelect.int (enabled activeHigh : Bool) : OpSelect.Statement (.int enabled activeHigh) := rfl

theorem OpSelect.pack (cells : List Bool) : OpSelect.Statement (.pack cells) := rfl

theorem OpSelect.num (vkind : BitVec 2) (neg : Bool) (ipart : BitVec 32) (frac : List Digit) (colon : Bool) :
    OpSelect.Statement (.num vkind neg ipart frac colon) := rfl

theorem OpSelect.setjust (mode : Justification) : OpSelect.Statement (.setjust mode) := rfl

theorem OpSelect.keyscan : OpSelect.Statement .keyscan := rfl

end Sys2Proof.Laws
end

