-- ==== Sys2Proof/Tests/Slice0.lean ====
section
/-! SUPPORT. The model's own tests: expected values from spec/95_test_vectors.md (cited by its names) or worked out from
the rules by hand; then the witnesses, one or more for each statement that has hypotheses. Digit bytes use the default
glyphs (G1, log entry 3). -/

namespace Sys2Proof.Tests

open Sys2Proof.Machine Sys2Proof.Claims

/-- Six zero bytes. -/
def zeros : Vector Byte 6 := #v[0, 0, 0, 0, 0, 0]

/-- An error value. -/
def err : TransportErr := ⟨7⟩

/-- A fresh instance of `c` whose transport answers ok. -/
def answered (c : Config) : State := { State.construct c with draws := [.reply (.ok zeros)] }

/-- A fresh instance whose transport reports an error. -/
def erring (c : Config) : State := { State.construct c with draws := [.reply (.error err)] }

/-- A fresh instance whose transport never answers. -/
def mute (c : Config) : State := { State.construct c with draws := [.silent] }

def board (cols : Nat) (quirk : Bool) : Config := { cols := cols, quirk := quirk, glyphs := defaultGlyphs }

/-- A grid with one lit cell. -/
def lit (n k : Nat) : List Bool := (List.range n).map (fun j => decide (j = k))

/-- What a run shows, if the step ended. -/
def shows (o : Outcome) : Option Observation :=
  match o with
  | .next s => some s.observe
  | .fault _ => none
  | .refused _ => none

/-- The trace after an operation. -/
def traceOf (o : Outcome) : Option (List Transaction) := (shows o).map (·.trace)

/-- The records after an operation. -/
def recordsOf (o : Outcome) : Option (List OpResult) := (shows o).map (·.results)

/-! Well-formedness: each check refuses an ill-formed term (R66, R67). -/

theorem test_wf_refuses_256_cells : (Instr.pack (List.replicate 256 true)).wf = false := by
  rw [Instr.wf, List.length_replicate]; decide
theorem test_wf_takes_255_cells : (Instr.pack (List.replicate 255 true)).wf = true := by
  rw [Instr.wf, List.length_replicate]; decide
theorem test_wf_refuses_nine_digits : (Instr.num 0 false 0 [1, 2, 3, 4, 5, 6, 7, 8, 9] false).wf = false := by decide
theorem test_wf_takes_eight_digits : (Instr.num 0 false 0 [1, 2, 3, 4, 5, 6, 7, 8] false).wf = true := by decide

/-! Decoding: ports written out from R60 to R67. -/

theorem test_decode_osc : decode { Ports.zero with op := 0b000, on := true } = .ok (.osc true) := rfl
theorem test_decode_disp : decode { Ports.zero with op := 0b001, on := true, blink := 0b10 } = .ok (.disp true 2) := rfl
theorem test_decode_bright : decode { Ports.zero with op := 0b010, level := 0xFFFD } = .ok (.bright false (-3)) := rfl
theorem test_decode_int :
    decode { Ports.zero with op := 0b011, enabled := false, activeHigh := true } = .ok (.int false true) := rfl
theorem test_decode_pack :
    decode { Ports.zero with op := 0b100, glen := 5, cells := 0b01101 } = .ok (.pack [true, false, true, true, false]) := by
  decide
/-- P3 request 5 with two fraction digits: -256.78. -/
theorem test_decode_num :
    decode { Ports.zero with op := 0b101, neg := true, ipart := 256, fracCount := 2, fracDigits := 0x87, colon := true }
      = .ok (.num 0 true 256 [7, 8] true) := by decide
theorem test_decode_setjust : decode { Ports.zero with op := 0b110, mode := true } = .ok (.setjust .left) := rfl
theorem test_decode_keyscan : decode { Ports.zero with op := 0b111 } = .ok .keyscan := rfl
theorem test_decode_refuses_digit_ten :
    decode { Ports.zero with op := 0b101, fracCount := 1, fracDigits := 0xA } = .error .bcdDigitAboveNine := by decide
theorem test_decode_ignores_digit_ten_past_the_count :
    decode { Ports.zero with op := 0b101, fracCount := 1, fracDigits := 0xA3 } = .ok (.num 0 false 0 [3] false) := by decide
theorem test_decode_refuses_nine_digits :
    decode { Ports.zero with op := 0b101, fracCount := 9 } = .error .fracCountAboveMax := by decide
/-- Words in the places of log entry 8: DISP on, 1 Hz; and BRIGHT 1 with the level in bits 22..7. -/
theorem test_decode_words :
    decodeTableWord 8 0b101001 = some (.disp true 2) ∧ decodeTableWord 16 0b10000010 = some (.bright false 1) ∧
    decodeBytes [0b00001000] = .ok (.osc true) := by decide

/-! The eight operations. -/

/-- V-OSC; V-ERR row 1: the failed command is in the trace and the mirror forgets. -/
theorem test_osc : traceOf (exec (.osc true) (answered defaultBoard)) = some [.cmd 0x21] := by decide
theorem test_osc_error :
    shows (exec (.osc false)
        { erring defaultBoard with cfg := { Mirror.unknown with oscillatorOn := some true } })
      = some { trace := [.cmd 0x20], results := [failed false (.transportError err)], just := .right,
               cfg := Mirror.unknown } := by decide
/-- V-DISP, all eight cases. -/
theorem test_disp_bytes :
    [(false, 0), (true, 0), (false, 1), (true, 1), (false, 2), (true, 2), (false, 3), (true, 3)].map
      (fun x : Bool × BitVec 2 => dispByte x.1 x.2) = [0x80, 0x81, 0x82, 0x83, 0x84, 0x85, 0x86, 0x87] := by decide
/-- V-BRIGHT, all rows. -/
theorem test_bright_bytes :
    [0, 1, 7, 15, 16, 20, 0x7FFF, 0xFFFF, 0xFFFD, 0x8000].map
      (fun l : BitVec 16 => (brightByte (clampBrightness false l.toInt), invalidBrightness false l.toInt))
      = [(0xE0, false), (0xE1, false), (0xE7, false), (0xEF, false), (0xEF, true), (0xEF, true), (0xEF, true),
         (0xE0, true), (0xE0, true), (0xE0, true)] := by decide
/-- V-ERR row 2 and U1: a non-integer level, and the warning beside a transport error. -/
theorem test_bright_nonint_error :
    shows (exec (.bright true 9) (erring defaultBoard))
      = some { trace := [.cmd 0xE0], results := [failed true (.transportError err)], just := .right,
               cfg := Mirror.unknown } := by decide
/-- V-INT: off with a polarity gives `A0`, and the mirror records false. -/
theorem test_int_off_high :
    shows (exec (.int false true) (answered defaultBoard))
      = some { trace := [.cmd 0xA0], results := [done false], just := .right,
               cfg := { Mirror.unknown with interruptEnabled := some false, interruptActiveHigh := some false } } := by
  decide
theorem test_int_bytes : (intByte true false, intByte true true) = (0xA1, 0xA3) := by decide
/-- V-PACK8: row 0 = 10110010 with the quirk; V-PACK16: only `cells[15]` with it. -/
theorem test_pack_quirk :
    packBuffer (board 8 true) ([true, false, true, true, false, false, true, false] ++ List.replicate 56 false)
      = 0xA6 :: List.replicate 15 0 ∧
    packBuffer (board 16 true) (lit 128 15) = 0x00 :: 0x40 :: List.replicate 14 0 := by decide
/-- V-GEOM: 12 columns fail although the length matches; one cell short fails. -/
theorem test_pack_geometry :
    recordsOf (exec (.pack (List.replicate 96 true)) (answered (board 12 false))) = some [failed false .invalidGeometry] ∧
    traceOf (exec (.pack (List.replicate 63 true)) (answered (board 8 false))) = some [] := by decide
/-- V-NUM: 91.3 to the right; -0.05; 1.2345 cut with its point; 9999.5 clamped. -/
theorem test_num_right :
    traceOf (exec (.num 0 false 91 [3] false) (answered defaultBoard))
      = some [.wr 0x00 [0x00, 0x00, 0x6F, 0x00, 0x00, 0x00, 0x86, 0x00, 0x4F]] := by decide
theorem test_num_vectors :
    (showNumber defaultGlyphs .left true 0 [0, 5] false).bytes defaultGlyphs
      = [0x40, 0x00, 0xBF, 0x00, 0x00, 0x00, 0x3F, 0x00, 0x6D] ∧
    (showNumber defaultGlyphs .right false 1 [2, 3, 4, 5] false).bytes defaultGlyphs
      = [0x86, 0x00, 0x5B, 0x00, 0x00, 0x00, 0x4F, 0x00, 0x66] ∧
    (showNumber defaultGlyphs .right false 9999 [5] true).bytes defaultGlyphs
      = [0x6F, 0x00, 0x6F, 0x00, 0x02, 0x00, 0x6F, 0x00, 0x6F] := by decide
/-- P3 requests 2 and 3: the mode set, then read. -/
theorem test_setjust : (shows (exec (.setjust .left) State.reset)).map (·.just) = some .left := by decide
theorem test_num_left :
    traceOf (exec (.num 0 false 91 [3] false) { answered defaultBoard with just := .left })
      = some [.wr 0x00 [0x6F, 0x00, 0x86, 0x00, 0x00, 0x00, 0x4F, 0x00, 0x00]] := by decide
/-- V-KEYSCAN: unchanged also with the quirk. -/
theorem test_keyscan :
    recordsOf (exec .keyscan
        { State.construct (board 8 true) with draws := [.reply (.ok #v[0x01, 0x00, 0xFF, 0x80, 0x00, 0x7E])] })
      = some [{ warn := false, error := .none, data := some #v[0x01, 0x00, 0xFF, 0x80, 0x00, 0x7E] }] := by decide

/-! Codes, rotation, syntax, the derived view, reset. -/

/-- R160. -/
theorem test_error_codes :
    [OpError.none, .invalidGeometry, .invalidValueType, .transportError err].map (·.code) = [0, 1, 2, 3] := by decide
/-- V-ROR. -/
theorem test_ror8 :
    [0x00, 0x01, 0x02, 0x80, 0x81, 0x3C, 0x4D, 0x55, 0xAA, 0xFF].map ror8
      = [0x00, 0x80, 0x01, 0x40, 0xC0, 0x1E, 0xA6, 0xAA, 0x55, 0xFF] := by decide
/-- R74's example, and a PACK of two rows. -/
theorem test_read_text :
    readRequest "NUM 91.3, nocolon".toList = some (.num 0 false 91 [3] false) ∧
    readRequest "PACK 101 / 01".toList = some (.pack [true, false, true, false, true]) ∧
    readRequest "DISP on, 0.5hz".toList = some (.disp true 3) ∧ readRequest "INT off,high".toList = some (.int false true) ∧
    readRequest "NUM 091, colon".toList = none := by decide
/-- R74's four INT forms, as V-INT writes them, and `off,low`, which is none of them. -/
theorem test_int_text :
    [(false, false), (false, true), (true, false), (true, true)].map (fun x : Bool × Bool => writeRequest (.int x.1 x.2))
      = ["INT off", "INT off,high", "INT on,low", "INT on,high"].map String.toList ∧
    readRequest "INT off".toList = some (.int false false) ∧ readRequest "INT on,low".toList = some (.int true false) ∧
    readRequest "INT off,low".toList = none ∧ readRequest "INT on".toList = none := by decide
/-- R186: a NUM over a PACK leaves address 9; a failed write is unknown (R48). -/
theorem test_display_ram :
    let log : List Exchange := [⟨.wr 0x00 (List.replicate 16 7), .ok zeros⟩, ⟨.wr 0x00 (List.replicate 9 1), .ok zeros⟩]
    (displayRam log).readByte 8 = some 1 ∧ (displayRam log).readByte 9 = some 7 ∧
    (displayRam (log ++ [⟨.wr 0x00 [0, 0], .error err⟩])).readByte 1 = none := by decide
theorem test_reset_ram_wf : (displayRam State.reset.log).wf := by decide
/-- R121: the defaults. -/
theorem test_default_glyphs :
    ((List.finRange 10).map (fun d => glyph defaultGlyphs (.digit d)), glyph defaultGlyphs .minus)
      = ([0x3F, 0x06, 0x5B, 0x4F, 0x66, 0x6D, 0x7D, 0x07, 0x7F, 0x6F], 0x40) := by decide
/-- From reset a table word's request runs as the first operation, whatever the free answer is. -/
theorem test_first_step : traceOf (step (State.reset.withFetchWord 8 0b111)) = some [.rd 0x40 6] := by decide

/-! Witnesses: a state and operands that meet a statement's hypotheses. -/

/-- For every statement whose hypothesis is an ok answer to a transaction. -/
theorem witness_answer_ok (c : Config) (t : Transaction) : (answered c).peek t = .reply (.ok zeros) := rfl
/-- For every statement whose hypothesis is an error answer. -/
theorem witness_answer_error (c : Config) (t : Transaction) : (erring c).peek t = .reply (.error err) := rfl

theorem witness_DecodeGivesBackEveryEncodedInstruction :
    (Instr.pack (List.replicate 255 true)).wf = true ∧ (Instr.num 3 true 0xFFFFFFFF [9, 9, 9, 9, 9, 9, 9, 9] true).wf = true ∧
    (Instr.bright false 0x8000).wf = true := ⟨test_wf_takes_255_cells, rfl, rfl⟩
theorem witness_AcceptedRequestIsWellFormed :
    decode { Ports.zero with op := 5, fracCount := 8, fracDigits := 0x99999999 }
      = .ok (.num 0 false 0 [9, 9, 9, 9, 9, 9, 9, 9] false) := by decide
theorem witness_WrittenRequestReadsBack : (Instr.num 0 true 4294967295 [0, 0, 0, 0, 0, 0, 0, 1] true).wf = true := by decide
theorem witness_StepRunsTheDecodedRequest :
    ∃ s : State, s.requests = Ports.zero :: [] ∧ decode Ports.zero = .ok (.osc false) :=
  ⟨{ State.reset with requests := [Ports.zero] }, rfl, rfl⟩
/-- Both clauses: nine digits; eight digits, the last one bad. -/
theorem witness_StepRefusesMalformedRequest :
    let many : Ports := { Ports.zero with op := 5, fracCount := 9 }
    let bad : Ports := { Ports.zero with op := 5, fracCount := 8, fracDigits := 0xA0000000 }
    (many.op = 5 ∧ 8 < many.fracCount.toNat) ∧
    (bad.op = 5 ∧ bad.fracCount.toNat ≤ 8 ∧
      ∃ j, j < bad.fracCount.toNat ∧ 9 < (bad.fracDigits.extractLsb' (4 * j) 4).toNat) :=
  ⟨by decide, by decide, by decide, 7, by decide, by decide⟩
theorem witness_WaitingStepKeepsTheState : State.reset.requests = [] := rfl
theorem witness_PlacedWordRunsNext : decodeTableWord 8 0b100 = some (.pack []) := by decide
/-- The clauses: seven rows; the minus with bit 7; a digit with bit 7; all clear. -/
theorem witness_ConfigureKeepsOrRefusesItsArguments :
    (7 ≠ 8) ∧ (0x80 : Byte).getLsbD 7 = true ∧
    (∃ d : Digit, (#v[0, 0, 0, 0, 0, 0, 0, 0, 0, 0x80] : Vector Byte 10)[d].getLsbD 7 = true) ∧
    (0x40 : Byte).getLsbD 7 = false ∧
    (∀ d : Digit, (#v[0x3F, 0x06, 0x5B, 0x4F, 0x66, 0x6D, 0x7D, 0x07, 0x7F, 0x6F] : Vector Byte 10)[d].getLsbD 7 = false) := by
  decide
theorem witness_op_ports :
    ({ Ports.zero with op := 1 } : Ports).op = 1 ∧ ({ Ports.zero with op := 2 } : Ports).op = 2 ∧
    ({ Ports.zero with op := 3 } : Ports).op = 3 ∧ ({ Ports.zero with op := 6 } : Ports).op = 6 ∧
    ({ Ports.zero with op := 7 } : Ports).op = 7 ∧ Ports.zero.op = 0 := by decide
/-- The length of a grid with one lit cell. -/
theorem lit_length (n k : Nat) : (lit n k).length = n := by simp [lit]

theorem witness_PackWritesItsBuffer :
    ((board 8 false).cols = 8 ∧ (lit 64 0).length = (board 8 false).cols * 8) ∧
    ((board 16 true).cols = 16 ∧ (lit 128 0).length = (board 16 true).cols * 8) :=
  ⟨⟨rfl, lit_length _ _⟩, rfl, lit_length _ _⟩
/-- The clauses: an unsupported column count, a cell short, a cell long; and an operation that ends with the error. -/
theorem witness_InvalidGeometryExactlyFromPack :
    badGeometry (board 12 false) 96 ∧ badGeometry (board 8 false) 63 ∧ badGeometry (board 16 false) 129 ∧
    ∃ t, exec (.pack []) State.reset = .next t ∧ lastError t = some .invalidGeometry :=
  ⟨.inl (by decide), .inr (by decide), .inr (by decide), _, rfl, rfl⟩
theorem witness_EightColumnBytesBitByBit :
    (board 8 false).cols = 8 ∧ (board 8 false).quirk = false ∧ (lit 64 63).length = 64 := by decide
theorem witness_SixteenColumnBytesBitByBit :
    (board 16 false).cols = 16 ∧ (board 16 false).quirk = false ∧ (lit 128 127).length = 128 :=
  ⟨rfl, rfl, lit_length _ _⟩
theorem witness_QuirkRotatesEveryByte : (packBuffer { board 8 true with quirk := false } (lit 64 63))[14]? = some 0x80 := by
  decide
theorem witness_PackIsInjective :
    (board 16 true).cols = 16 ∧ (lit 128 9).length = (board 16 true).cols * 8 ∧
    packBuffer (board 16 true) (lit 128 9) = packBuffer (board 16 true) (lit 128 9) := ⟨rfl, lit_length _ _, rfl⟩
theorem witness_EightColumnPadBytesStayZero : (board 8 true).cols = 8 ∧ 7 < 8 := by decide
theorem witness_InvalidValueTypeExactlyFromNum :
    ((3 : BitVec 2) = 2 ∨ (3 : BitVec 2) = 3) ∧
    ∃ t, exec (.num 2 false 0 [] true) State.reset = .next t ∧ lastError t = some .invalidValueType :=
  ⟨by decide, _, rfl, rfl⟩
/-- The three clauses at the ends of the range. -/
theorem witness_RangePolicyComparesExactDecimals :
    9999 < decimalValue false 9999 [0, 1] ∧ decimalValue true 999 [5] < -999 ∧
    (-999 ≤ decimalValue true 999 [0] ∧ decimalValue true 999 [0] ≤ 9999) ∧
    (-999 ≤ decimalValue false 9999 [0] ∧ decimalValue false 9999 [0] ≤ 9999) := by
  norm_num [decimalValue, fracValue]
theorem witness_PointAcceptedExactlyInTheFirstFour : 4294967295 < 2 ^ 32 ∧ ([3] : List Digit) ≠ [] ∧ true = true := by decide
theorem witness_JustificationPlacesTheCharacters :
    let text : List GlyphChar := [.minus, .digit 5]
    text.length ≤ 4 ∧ 1 < 4 - text.length ∧ 1 < text.length ∧ (text.length ≤ 3 ∧ 3 < 4) := by decide
theorem witness_PointBitMarksOneDigitSlot :
    91 < 2 ^ 32 ∧ (showNumber defaultGlyphs .right false 91 [3] false).decimalPointSlot = some 2 := by decide
theorem witness_EveryOperationCompletesWhereTheTransportAnswers : ∀ t, (answered defaultBoard).Answers t := fun _ => ⟨_, rfl⟩
theorem witness_OnlyASilentTransportHoldsAStep :
    (∃ f, exec (.osc true) (mute defaultBoard) = .fault f) ∧
    ∃ u, exec (.osc true) { State.reset with draws := .reply (.ok zeros) :: State.reset.draws } = .next u ∧
      u.log = State.reset.log ++ [⟨.cmd 0x21, .ok zeros⟩] :=
  ⟨⟨_, rfl⟩, _, rfl, rfl⟩
theorem witness_StepKeepsTheInvariant :
    State.reset.Inv ∧ ∃ t, step { State.reset with requests := [encode .keyscan] } = .next t :=
  ⟨⟨rfl, fun _ h => (nomatch h), ⟨rfl, rfl⟩, by simp [Mirror.interruptCoherent, State.reset, State.construct, Mirror.unknown]⟩,
    _, rfl⟩
/-- For every statement about an operation that answers next (AtMostOneTransactionPerOperation, ConfigurationNeverChanges,
OnlyBlockWritesTouchTheDisplayRam). -/
theorem witness_exec_next : ∃ t, exec (.osc true) (answered defaultBoard) = .next t ∧ t.trace = [.cmd 0x21] := ⟨_, rfl, rfl⟩
theorem witness_step_next :
    ∃ t, step { answered defaultBoard with requests := [encode .keyscan, encode .keyscan] } = .next t ∧
      t.requests = [encode .keyscan] := ⟨_, rfl, rfl⟩
theorem witness_EncoderFailureLeavesNoMark :
    ∃ t, exec (.pack []) (answered defaultBoard) = .next t ∧ lastError t = some .invalidGeometry := ⟨_, rfl, rfl⟩
theorem witness_OnlySetjustWritesJust :
    ∃ t, exec (.setjust .left) State.reset = .next t ∧ t.just ≠ State.reset.just := ⟨_, rfl, by decide⟩
/-- Each clause: a command that changes its field. -/
theorem witness_MirrorFieldsWrittenByTheirCommandsOnly :
    (∃ t, exec (.osc true) (answered defaultBoard) = .next t ∧ t.cfg.oscillatorOn = some true) ∧
    (∃ t, exec (.disp true 3) (answered defaultBoard) = .next t ∧ t.cfg.displayOn = some true ∧ t.cfg.blinkRate = some 3) ∧
    (∃ t, exec (.bright false 7) (answered defaultBoard) = .next t ∧ t.cfg.brightness = some 7) ∧
    (∃ t, exec (.int true true) (answered defaultBoard) = .next t ∧ t.cfg.interruptEnabled = some true ∧
      t.cfg.interruptActiveHigh = some true) :=
  ⟨⟨_, rfl, by decide⟩, ⟨_, rfl, by decide, by decide⟩, ⟨_, rfl, by decide⟩, ⟨_, rfl, by decide, by decide⟩⟩
/-- Two states with one board and one `JUST` and different mirrors. -/
theorem witness_HistoryReachesNoTransaction :
    let s := answered defaultBoard
    let s' := { s with cfg := { Mirror.unknown with brightness := some 3 }, results := [done true] }
    s.board = s'.board ∧ s.just = s'.just ∧ (∀ x, s.peek x = s'.peek x) ∧
    (∃ t, exec .keyscan s = .next t) ∧ ∃ t, exec .keyscan s' = .next t :=
  ⟨rfl, rfl, fun _ => rfl, ⟨_, rfl⟩, _, rfl⟩
theorem witness_GeometryAndQuirkReachPackAlone :
    (∀ cells, Instr.keyscan ≠ .pack cells) ∧ ∃ t, exec .keyscan (answered defaultBoard) = .next t :=
  ⟨nofun, _, rfl⟩
theorem witness_WarningExactlyFromAClampedBright :
    (∃ t, exec (.bright false 16) (answered defaultBoard) = .next t ∧ lastWarn t = some true) ∧
    ∃ t, exec (.bright false 15) (answered defaultBoard) = .next t ∧ lastWarn t = some false :=
  ⟨⟨_, rfl, by decide⟩, _, rfl, by decide⟩
theorem witness_TransportErrorPropagatesUnchanged :
    ∃ t, exec .keyscan (erring defaultBoard) = .next t ∧ t.log = (erring defaultBoard).log ++ [⟨.rd 0x40 6, .error err⟩] :=
  ⟨_, rfl, rfl⟩
theorem witness_CommandBytesReadBack : 15 ≤ 15 := by decide
/-- Both clauses: the longest grid, its last cell; eight digits, the last one 9, and none. -/
theorem witness_PackAndNumReadTheirPorts :
    (let p : Ports := { Ports.zero with op := 4, glen := 255, cells := 1 }
     p.op = 4 ∧ 254 < p.glen.toNat) ∧
    (let p : Ports := { Ports.zero with op := 5, fracCount := 8, fracDigits := 0x90000000 }
     p.op = 5 ∧ p.fracCount.toNat ≤ 8 ∧
      (∀ j, j < p.fracCount.toNat → (p.fracDigits.extractLsb' (4 * j) 4).toNat ≤ 9) ∧ 7 < p.fracCount.toNat) ∧
    (let p : Ports := { Ports.zero with op := 5, fracDigits := 0xF }
     p.op = 5 ∧ p.fracCount.toNat ≤ 8 ∧
      ∀ j, j < p.fracCount.toNat → (p.fracDigits.extractLsb' (4 * j) 4).toNat ≤ 9) := by decide
/-- The clauses: the two lengths; a PACK, a NUM and a KEYSCAN that hand their transaction over. -/
theorem witness_BlockTransactionsReadBack :
    ((List.replicate 16 (7 : Byte)).length = 16 ∧ (List.replicate 9 (7 : Byte)).length = 9) ∧
    (∃ t x, exec (.pack (List.replicate 64 true)) (answered defaultBoard) = .next t ∧
      t.trace = (answered defaultBoard).trace ++ [x]) ∧
    (∃ t x, exec (.num 1 false 0 [] true) (answered defaultBoard) = .next t ∧
      t.trace = (answered defaultBoard).trace ++ [x]) ∧
    ∃ t x, exec .keyscan (answered defaultBoard) = .next t ∧ t.trace = (answered defaultBoard).trace ++ [x] :=
  ⟨by decide, ⟨_, _, rfl, rfl⟩, ⟨_, _, rfl, rfl⟩, _, _, rfl, rfl⟩
theorem witness_PackWritesTheDisplayRam : ¬ badGeometry (board 16 false) 128 := by simp [badGeometry, board]
/-- Both clauses: an answered and a failed blank. -/
theorem witness_NumLeavesTheUpperDisplayRam :
    (∃ t, exec (.num 1 false 0 [] true) (answered defaultBoard) = .next t ∧
      t.log = [⟨.wr 0x00 [0, 0, 0, 0, 2, 0, 0, 0, 0], .ok zeros⟩]) ∧
    ∃ t, exec (.num 1 false 0 [] true) (erring defaultBoard) = .next t ∧
      t.log = [⟨.wr 0x00 [0, 0, 0, 0, 2, 0, 0, 0, 0], .error err⟩] :=
  ⟨⟨_, rfl, by decide⟩, _, rfl, by decide⟩

end Sys2Proof.Tests
end

