-- ==== Sys2Proof/Proofs/MatrixPacker.lean ====
section
/-! PROOFS. What PACK hands over where its geometry check passes (R101, R102, R105). -/

namespace Sys2Proof.Machine
open Sys2Proof.Claims

/-- With a right geometry PACK is the block write of its buffer from `0x00` (R105), whatever the transport does. -/
theorem exec_pack_of_geometryOk {cells : List Bool} {s : State} (hg : geometryOk s.board cells.length = true) :
    exec (.pack cells) s = writeBlock 0x00 (packBuffer s.board cells) s :=
  if_pos hg

/-- An answered PACK: its write is logged with the answer, and the answer alone makes the record (R105, R164). -/
theorem exec_pack_answers {cells : List Bool} {s : State} {r : Reply}
    (hg : geometryOk s.board cells.length = true) (hr : s.peek (.wr 0x00 (packBuffer s.board cells)) = .reply r) :
    exec (.pack cells) s = .next (sent s (.wr 0x00 (packBuffer s.board cells)) r s.cfg (replyRecord false r)) := by
  rw [exec_pack_of_geometryOk hg, writeBlock_answers hr]
  rfl

/-- Settles O19: the geometry condition is the check's, the buffer has its length, and each answer gives its record. -/
theorem packWritesItsBuffer : Obligations.PackWritesItsBuffer := by
  intro cells s hcols hlen
  have hg : geometryOk s.board cells.length = true := (geometryOk_iff _ _).mpr ⟨hcols, hlen⟩
  refine ⟨packBuffer_length _ _, fun v hv => ?_, fun e he => ?_⟩
  · exact exec_pack_answers hg hv
  · exact exec_pack_answers hg he

end Sys2Proof.Machine
end

