-- ==== Sys2Proof/Proofs/NumericEncoder.lean ====
section
/-! PROOFS. The nine bytes of a numeric display (R131) and where their colon comes from (R123, R124). -/

namespace Sys2Proof.Machine
open Sys2Proof.Claims

/-- The colon's pattern is fixed: no glyph table replaces it (R120). -/
@[simp] theorem glyph_colon (g : GlyphTable) : glyph g .colon = 0x02 := rfl

/-- R131 with the colon byte written out: the glyph table has no say in it. -/
theorem NumericDisplay.bytes_eq (g : GlyphTable) (d : NumericDisplay) :
    d.bytes g = [d.slotByte 0, 0x00, d.slotByte 1, 0x00, if d.colonOn then 0x02 else 0x00, 0x00, d.slotByte 2, 0x00,
      d.slotByte 3] := by
  rw [NumericDisplay.bytes, glyph_colon]

/-- The bytes at the odd indexes are the pads (R131). -/
theorem NumericDisplay.bytes_getElem?_pad (g : GlyphTable) (d : NumericDisplay) {k : Nat}
    (hk : k = 1 ∨ k = 3 ∨ k = 5 ∨ k = 7) : (d.bytes g)[k]? = some 0x00 := by
  rw [d.bytes_eq]
  rcases hk with rfl | rfl | rfl | rfl <;> rfl

/-- The range policy changes the value alone, never the colon (R125, R131). -/
@[simp] theorem showNumber_colonOn (g : GlyphTable) (just : Justification) (neg : Bool) (ipart : Nat)
    (frac : List Digit) (colon : Bool) : (showNumber g just neg ipart frac colon).colonOn = colon := rfl

/-- A blank keeps its colon (R124). -/
@[simp] theorem showBlank_colonOn (colon : Bool) : (showBlank colon).colonOn = colon := rfl

/-- Settles O35: the slots and the colon are read off the written-out bytes, the pads and the two colons have their
own lemmas. -/
theorem numericLayout : Obligations.NumericLayout := by
  refine ⟨fun g d => ?_, showNumber_colonOn, showBlank_colonOn⟩
  refine ⟨?_, ?_, ?_, ?_, ?_, ?_, fun _ => d.bytes_getElem?_pad g⟩ <;> rw [d.bytes_eq] <;> rfl

end Sys2Proof.Machine
end

