-- ==== Sys2Proof/Proofs/EncoderFailure.lean ====
section
/-! PROOFS. The two encoder-level failures (R162, R163): which operation raises each, and that neither leaves a mark but
its record (R165). -/

namespace Sys2Proof.Machine
open Sys2Proof.Claims

/-- The error is one the encoder raises, before any transport call (R160, R165). -/
def OpError.IsEncoderLevel (e : OpError) : Prop := e = .invalidGeometry ∨ e = .invalidValueType

/-- Success is no failure of the encoder. -/
theorem not_isEncoderLevel_none : ¬ OpError.none.IsEncoderLevel := by simp [OpError.IsEncoderLevel]

/-- A transport's error is none of the encoder's (R164). -/
theorem not_isEncoderLevel_transportError (e : TransportErr) : ¬ (OpError.transportError e).IsEncoderLevel := by
  simp [OpError.IsEncoderLevel]

/-- No answer to a command or block write is reported as an encoder-level failure. -/
theorem not_isEncoderLevel_replyRecord (w : Bool) : ∀ r : Reply, ¬ (replyRecord w r).error.IsEncoderLevel
  | .ok _ => not_isEncoderLevel_none
  | .error e => not_isEncoderLevel_transportError e

/-- No answer to a block read is reported as an encoder-level failure. -/
theorem not_isEncoderLevel_readRecord : ∀ r : Reply, ¬ (readRecord r).error.IsEncoderLevel
  | .ok _ => not_isEncoderLevel_none
  | .error e => not_isEncoderLevel_transportError e

/-- After a report the last error is the one reported. -/
@[simp] theorem lastError_report (r : OpResult) (s : State) : lastError (s.report r) = some r.error := by
  simp [lastError]

/-- Raising an error adds its record to the state and nothing else (R165). -/
theorem raiseError_eq_told (w : Bool) (e : OpError) (s : State) : s.raiseError w e = told s (failed w e) := rfl

/-- The model's check fails exactly on R102's condition. -/
theorem geometryOk_eq_false_iff (c : Config) (glen : Nat) : geometryOk c glen = false ↔ badGeometry c glen := by
  rw [← Bool.not_eq_true, geometryOk_iff, not_and_or, not_or, badGeometry]

/-- The codes that stand for no number (R67). -/
theorem valueKind_eq_nonNumeric_iff : ∀ vkind : BitVec 2, valueKind vkind = .nonNumeric ↔ vkind = 2 ∨ vkind = 3 := by
  decide

/-- With a wrong geometry PACK fails before it hands anything over (R102, R162). -/
theorem exec_pack_of_geometryOk_eq_false {cells : List Bool} {s : State}
    (hg : geometryOk s.board cells.length = false) :
    exec (.pack cells) s = .next (s.raiseError false .invalidGeometry) := by
  simp [exec, execPack, hg]

/-- On a value that is no number NUM fails before it hands anything over (R124, R163). -/
theorem exec_num_of_nonNumeric {vkind : BitVec 2} (hv : valueKind vkind = .nonNumeric) (neg : Bool) (ipart : BitVec 32)
    (frac : List Digit) (colon : Bool) (s : State) :
    exec (.num vkind neg ipart frac colon) s = .next (s.raiseError false .invalidValueType) := by
  simp [exec, execNum, hv]

/-- How operation `i` comes to fail in the encoder with `e`, from state `s`: PACK's check or NUM's value (R162, R163). -/
inductive EncoderFailure (s : State) : Instr → OpError → Prop where
  | geometry (cells : List Bool) (hg : geometryOk s.board cells.length = false) :
      EncoderFailure s (.pack cells) .invalidGeometry
  | valueType (vkind : BitVec 2) (neg : Bool) (ipart : BitVec 32) (frac : List Digit) (colon : Bool)
      (hv : valueKind vkind = .nonNumeric) : EncoderFailure s (.num vkind neg ipart frac colon) .invalidValueType

/-- An operation that ends with an encoder-level error met one of the two causes, and only raised that error: in every
other case its record holds the transport's answer, or success. -/
theorem exec_encoderFailure {i : Instr} {s t : State} {e : OpError} (h : exec i s = .next t)
    (he : lastError t = some e) (hlevel : e.IsEncoderLevel) :
    EncoderFailure s i e ∧ t = s.raiseError false e := by
  obtain ⟨_, _, w, r, -, -, rfl⟩ | ⟨_, r, -, -, rfl⟩ | ⟨r, -, -, rfl⟩ | ⟨cells, rfl, hg, rfl⟩ |
    ⟨vkind, neg, ipart, frac, colon, rfl, hv, rfl⟩ | ⟨_, -, rfl⟩ := exec_cases h
  all_goals cases (lastError_report _ _).symm.trans he
  · exact absurd hlevel (not_isEncoderLevel_replyRecord w r)
  · exact absurd hlevel (not_isEncoderLevel_replyRecord false r)
  · exact absurd hlevel (not_isEncoderLevel_readRecord r)
  · exact ⟨.geometry cells hg, rfl⟩
  · exact ⟨.valueType vkind neg ipart frac colon hv, rfl⟩
  · exact absurd hlevel not_isEncoderLevel_none

/-- Settles O20: PACK's failing check raises the error, and of the two causes of an encoder-level failure it alone gives
this error. -/
theorem invalidGeometryExactlyFromPack : Obligations.InvalidGeometryExactlyFromPack := by
  refine ⟨fun cells s hbad => ?_, fun i s t h he => ?_⟩
  · exact exec_pack_of_geometryOk_eq_false ((geometryOk_eq_false_iff _ _).mpr hbad)
  · obtain ⟨cause, -⟩ := exec_encoderFailure h he (.inl rfl)
    cases cause with
    | geometry cells hg => exact ⟨cells, rfl, (geometryOk_eq_false_iff _ _).mp hg⟩

/-- Settles O29: NUM on no number raises the error, and of the two causes of an encoder-level failure it alone gives this
error. -/
theorem invalidValueTypeExactlyFromNum : Obligations.InvalidValueTypeExactlyFromNum := by
  refine ⟨fun vkind neg ipart frac colon s hbad => ?_, fun i s t h he => ?_⟩
  · exact exec_num_of_nonNumeric ((valueKind_eq_nonNumeric_iff vkind).mpr hbad) neg ipart frac colon s
  · obtain ⟨cause, -⟩ := exec_encoderFailure h he (.inr rfl)
    cases cause with
    | valueType vkind neg ipart frac colon hv =>
      exact ⟨vkind, neg, ipart, frac, colon, rfl, (valueKind_eq_nonNumeric_iff vkind).mp hv⟩

/-- Settles O43: an encoder-level failure is a raised error and nothing more. -/
theorem encoderFailureLeavesNoMark : Obligations.EncoderFailureLeavesNoMark := by
  intro i s t e h he hlevel
  obtain ⟨-, ht⟩ := exec_encoderFailure h he hlevel
  rw [ht, raiseError_eq_told]

end Sys2Proof.Machine
end

