-- ==== Sys2Proof/Proofs/Decode.lean ====
section
/-! PROOFS. The decoder and the encoder of requests (R60 to R67, R72): what each `op` decodes to, which requests are
refused, and that the two undo each other. -/

namespace Sys2Proof

/-! What each `op` decodes to (R60). -/

theorem decode_of_op_zero {p : Ports} (h : p.op = 0) : decode p = .ok (.osc p.on) := by simp [decode, h]

theorem decode_of_op_one {p : Ports} (h : p.op = 1) : decode p = .ok (.disp p.on p.blink) := by simp [decode, h]

theorem decode_of_op_two {p : Ports} (h : p.op = 2) : decode p = .ok (.bright p.nonint p.level) := by simp [decode, h]

theorem decode_of_op_three {p : Ports} (h : p.op = 3) : decode p = .ok (.int p.enabled p.activeHigh) := by
  simp [decode, h]

theorem decode_of_op_four {p : Ports} (h : p.op = 4) :
    decode p = .ok (.pack (decodeCells p.glen.toNat p.cells.toNat)) := by simp [decode, h]

theorem decode_of_op_five {p : Ports} (h : p.op = 5) :
    decode p = (decodeFrac p.fracCount p.fracDigits).map (fun frac => .num p.vkind p.neg p.ipart frac p.colon) := by
  simp only [decode, h]
  cases decodeFrac p.fracCount p.fracDigits <;> rfl

theorem decode_of_op_six {p : Ports} (h : p.op = 6) : decode p = .ok (.setjust (decodeMode p.mode)) := by
  simp [decode, h]

theorem decode_of_op_seven {p : Ports} (h : p.op = 7) : decode p = .ok .keyscan := by simp [decode, h]

/-- The eight values of the `op` port, all of them assigned (R60). -/
theorem op_cases : ∀ op : BitVec 3,
    op = 0 ∨ op = 1 ∨ op = 2 ∨ op = 3 ∨ op = 4 ∨ op = 5 ∨ op = 6 ∨ op = 7 := by decide

/-! The fraction operand of NUM (R67). -/

/-- Digit `j` of the fraction port is nibble `j`. -/
theorem toNat_extractLsb'_nibble (v : BitVec 32) (j : Nat) :
    (v.extractLsb' (4 * j) 4).toNat = v.toNat / 16 ^ j % 16 := by
  rw [BitVec.extractLsb'_toNat, Nat.shiftRight_eq_div_pow, Nat.pow_mul]

/-- One code above 9 among the first `n` is enough for a refusal. -/
theorem decodeDigits_error {n v : Nat} (h : ∃ j, j < n ∧ 9 < v / 16 ^ j % 16) :
    decodeDigits n v = .error .bcdDigitAboveNine := by
  induction n generalizing v with
  | zero => obtain ⟨j, hj, -⟩ := h; omega
  | succ n ih =>
    obtain ⟨j, hj, hv⟩ := h
    by_cases h0 : v % 16 < 10
    · cases j with
      | zero => simp at hv; omega
      | succ j =>
        rw [Nat.pow_succ', ← Nat.div_div_eq_div_mul] at hv
        simp [decodeDigits, h0, ih ⟨j, by omega, hv⟩]
    · simp [decodeDigits, h0]

theorem decodeFrac_of_le {count : BitVec 4} (h : count.toNat ≤ 8) (digits : BitVec 32) :
    decodeFrac count digits = decodeDigits count.toNat digits.toNat := if_pos h

theorem decodeFrac_of_lt {count : BitVec 4} (h : 8 < count.toNat) (digits : BitVec 32) :
    decodeFrac count digits = .error .fracCountAboveMax := if_neg (by simpa [Config.fracMax] using h)

/-- A fraction has at most `FRAC_MAX` digits, as many as its count says. -/
theorem decodeFrac_length {count : BitVec 4} {digits : BitVec 32} {frac : List Digit}
    (h : decodeFrac count digits = .ok frac) : frac.length = count.toNat ∧ frac.length ≤ 8 := by
  by_cases hc : count.toNat ≤ 8
  · rw [decodeFrac_of_le hc] at h
    have := decodeDigits_length h
    omega
  · rw [decodeFrac_of_lt (by omega)] at h
    cases h

theorem decodeFrac_error {count : BitVec 4} {digits : BitVec 32} (hc : count.toNat ≤ 8)
    (h : ∃ j, j < count.toNat ∧ 9 < (digits.extractLsb' (4 * j) 4).toNat) :
    decodeFrac count digits = .error .bcdDigitAboveNine := by
  rw [decodeFrac_of_le hc]
  exact decodeDigits_error (by simpa only [toNat_extractLsb'_nibble] using h)

theorem decodeFrac_ok {count : BitVec 4} {digits : BitVec 32} (hc : count.toNat ≤ 8)
    (h : ∀ j, j < count.toNat → (digits.extractLsb' (4 * j) 4).toNat ≤ 9) :
    ∃ frac, decodeFrac count digits = .ok frac ∧
      ∀ j, j < count.toNat → frac[j]?.map Fin.val = some (digits.extractLsb' (4 * j) 4).toNat := by
  simp only [toNat_extractLsb'_nibble] at h ⊢
  rw [decodeFrac_of_le hc]
  exact decodeDigits_ok h

/-- What the encoder writes on the fraction ports is read back (R67). -/
theorem decodeFrac_encode {frac : List Digit} (h : frac.length ≤ 8) :
    decodeFrac (BitVec.ofNat 4 frac.length) (BitVec.ofNat 32 (encodeDigits frac)) = .ok frac := by
  have hcount : (BitVec.ofNat 4 frac.length).toNat = frac.length := by
    rw [BitVec.toNat_ofNat, Nat.mod_eq_of_lt (by omega)]
  have hdigits : (BitVec.ofNat 32 (encodeDigits frac)).toNat = encodeDigits frac := by
    have hlt := encodeDigits_lt frac
    have hle : 16 ^ frac.length ≤ 16 ^ 8 := Nat.pow_le_pow_right (by decide) h
    rw [BitVec.toNat_ofNat, Nat.mod_eq_of_lt (by omega)]
  rw [decodeFrac_of_le (by omega), hcount, hdigits, decodeDigits_encodeDigits]

/-- What the encoder writes on the grid ports is read back (R66). -/
theorem decodeCells_encode {cells : List Bool} (h : cells.length ≤ 255) :
    decodeCells (BitVec.ofNat 8 cells.length).toNat (BitVec.ofNat 255 (encodeCells cells)).toNat = cells := by
  have hlen : (BitVec.ofNat 8 cells.length).toNat = cells.length := by
    rw [BitVec.toNat_ofNat, Nat.mod_eq_of_lt (by omega)]
  have hcells : (BitVec.ofNat 255 (encodeCells cells)).toNat = encodeCells cells := by
    rw [BitVec.toNat_ofNat,
      Nat.mod_eq_of_lt ((encodeCells_lt cells).trans_le (Nat.pow_le_pow_right (by decide) h))]
  rw [hlen, hcells, decodeCells_encodeCells]

theorem decodeMode_encodeMode (mode : Justification) : decodeMode (encodeMode mode) = mode := by cases mode <;> rfl

/-- On the ports, decoding undoes encoding. -/
theorem decode_encode {i : Instr} (h : i.wf = true) : decode (encode i) = .ok i := by
  cases i with
  | osc on => exact decode_of_op_zero rfl
  | disp on blink => exact decode_of_op_one rfl
  | bright nonint level => exact decode_of_op_two rfl
  | int enabled activeHigh => exact decode_of_op_three rfl
  | pack cells => rw [decode_of_op_four rfl, encode, decodeCells_encode (of_decide_eq_true h)]
  | num vkind neg ipart frac colon => rw [decode_of_op_five rfl, encode, decodeFrac_encode (of_decide_eq_true h)]; rfl
  | setjust mode => rw [decode_of_op_six rfl, encode, decodeMode_encodeMode]
  | keyscan => exact decode_of_op_seven rfl

/-- A grid decoded from the ports has at most the 255 cells `glen` can count. -/
theorem wf_pack_decodeCells (glen : BitVec 8) (v : Nat) : (Instr.pack (decodeCells glen.toNat v)).wf = true := by
  have := glen.isLt
  simp only [Instr.wf, decodeCells_length, Config.glenMax, decide_eq_true_eq]
  omega

/-- All the decoder can answer: a well-formed instruction of the operation `op` selects, or a refusal, of a NUM. -/
theorem decode_cases (p : Ports) :
    (∃ i, decode p = .ok i ∧ i.wf = true ∧ (encode i).op = p.op) ∨ (p.op = 5 ∧ ∃ e, decode p = .error e) := by
  rcases op_cases p.op with hp | hp | hp | hp | hp | hp | hp | hp
  · exact .inl ⟨_, decode_of_op_zero hp, rfl, hp.symm⟩
  · exact .inl ⟨_, decode_of_op_one hp, rfl, hp.symm⟩
  · exact .inl ⟨_, decode_of_op_two hp, rfl, hp.symm⟩
  · exact .inl ⟨_, decode_of_op_three hp, rfl, hp.symm⟩
  · exact .inl ⟨_, decode_of_op_four hp, wf_pack_decodeCells _ _, hp.symm⟩
  · rw [decode_of_op_five hp]
    cases hf : decodeFrac p.fracCount p.fracDigits with
    | ok frac => exact .inl ⟨_, rfl, decide_eq_true (decodeFrac_length hf).2, hp.symm⟩
    | error e => exact .inr ⟨hp, e, rfl⟩
  · exact .inl ⟨_, decode_of_op_six hp, rfl, hp.symm⟩
  · exact .inl ⟨_, decode_of_op_seven hp, rfl, hp.symm⟩

/-- A request the decoder accepts is well formed and of the operation `op` selects. -/
theorem wf_and_op_of_decode {p : Ports} {i : Instr} (h : decode p = .ok i) : i.wf = true ∧ (encode i).op = p.op := by
  obtain ⟨i', hi', hwf, hop⟩ | ⟨-, e, he⟩ := decode_cases p
  · rw [h] at hi'; cases hi'; exact ⟨hwf, hop⟩
  · rw [h] at he; cases he

/-- Only NUM has operands outside the format. -/
theorem op_eq_five_of_decode_error {p : Ports} {e : DecodeError} (h : decode p = .error e) : p.op = 5 := by
  obtain ⟨i, hi, -⟩ | ⟨hp, -⟩ := decode_cases p
  · rw [h] at hi; cases hi
  · exact hp

/-- A NUM with more than eight fraction digits is refused (R67). -/
theorem decode_error_of_count {p : Ports} (hp : p.op = 5) (hc : 8 < p.fracCount.toNat) :
    decode p = .error .fracCountAboveMax := by
  rw [decode_of_op_five hp, decodeFrac_of_lt hc]; rfl

/-- A NUM with a code above 9 among its fraction digits is refused (R67). -/
theorem decode_error_of_digit {p : Ports} (hp : p.op = 5) (hc : p.fracCount.toNat ≤ 8)
    (h : ∃ j, j < p.fracCount.toNat ∧ 9 < (p.fracDigits.extractLsb' (4 * j) 4).toNat) :
    decode p = .error .bcdDigitAboveNine := by
  rw [decode_of_op_five hp, decodeFrac_error hc h]; rfl

/-- A NUM whose fraction is in the format is accepted, with the digits its ports carry (R67). -/
theorem decode_num_ok {p : Ports} (hp : p.op = 5) (hc : p.fracCount.toNat ≤ 8)
    (h : ∀ j, j < p.fracCount.toNat → (p.fracDigits.extractLsb' (4 * j) 4).toNat ≤ 9) :
    ∃ frac, decode p = .ok (.num p.vkind p.neg p.ipart frac p.colon) ∧ frac.length = p.fracCount.toNat ∧
      ∀ j, j < p.fracCount.toNat → frac[j]?.map Fin.val = some (p.fracDigits.extractLsb' (4 * j) 4).toNat := by
  obtain ⟨frac, hf, hv⟩ := decodeFrac_ok hc h
  exact ⟨frac, by rw [decode_of_op_five hp, hf]; rfl, (decodeFrac_length hf).1, hv⟩

/-- Settles O1: the word loses no bit of a port, and on the ports decoding undoes encoding. -/
theorem decodeGivesBackEveryEncodedInstruction : Obligations.DecodeGivesBackEveryEncodedInstruction := by
  intro i hi
  rw [decodeWord, encodeWord, portsOfWord_wordOfPorts, decode_encode hi]

/-- Settles O2: what is decoded is well formed, and a well-formed instruction survives encoding. -/
theorem acceptedRequestIsWellFormed : Obligations.AcceptedRequestIsWellFormed := by
  intro p i h
  obtain ⟨hwf, hop⟩ := wf_and_op_of_decode h
  exact ⟨hwf, hop, decode_encode hwf⟩

/-- Settles O3: a refused request is a NUM, and a NUM in the format is accepted; the two ways out of the format are
refused. -/
theorem requestRefusedExactlyForMalformedFraction : Obligations.RequestRefusedExactlyForMalformedFraction := by
  intro p
  constructor
  · rintro ⟨e, he⟩
    refine ⟨op_eq_five_of_decode_error he, ?_⟩
    by_contra hbad
    push Not at hbad
    obtain ⟨hc, hdigits⟩ := hbad
    obtain ⟨frac, hok, -⟩ := decode_num_ok (op_eq_five_of_decode_error he) hc hdigits
    rw [hok] at he
    cases he
  · rintro ⟨hp, hbad⟩
    by_cases hc : 8 < p.fracCount.toNat
    · exact ⟨_, decode_error_of_count hp hc⟩
    · exact ⟨_, decode_error_of_digit hp (by omega) (hbad.resolve_left hc)⟩

/-- Settles O4: each word puts its number on the `op` port and zero on every other. -/
theorem tableWordsDecodeToTheirOperations : Obligations.TableWordsDecodeToTheirOperations := by
  unfold Obligations.TableWordsDecodeToTheirOperations
  decide

/-- Settles O56: PACK's cells are the bits of its port, NUM's digits the nibbles of its. -/
theorem packAndNumReadTheirPorts : Obligations.PackAndNumReadTheirPorts := by
  refine ⟨fun p hp => ?_, fun p hp => decode_num_ok hp⟩
  exact ⟨_, decode_of_op_four hp, decodeCells_length _ _, fun k hk => decodeCells_getElem? _ hk⟩

end Sys2Proof
end

