-- ==== Sys2Proof/Proofs/Invariant.lean ====
section
/-! PROOFS. The invariant of mirror, log and reports (R23, R24, R72, R150, R164): construction meets it and every step
keeps it. -/

namespace Sys2Proof.Machine

/-! What the log's and the records' readings give for a longer history. -/

theorem mirrorOfLog_append (log xs : List Exchange) :
    mirrorOfLog (log ++ xs) = xs.foldl mirrorAfter (mirrorOfLog log) := List.foldl_append

theorem transportErrors_append (log xs : List Exchange) :
    transportErrors (log ++ xs) = transportErrors log ++ transportErrors xs := List.filterMap_append

theorem bytesRead_append (log xs : List Exchange) : bytesRead (log ++ xs) = bytesRead log ++ bytesRead xs :=
  List.filterMap_append

theorem reportedErrors_append (rs xs : List OpResult) :
    reportedErrors (rs ++ xs) = reportedErrors rs ++ reportedErrors xs := List.filterMap_append

theorem reportedData_append (rs xs : List OpResult) :
    reportedData (rs ++ xs) = reportedData rs ++ reportedData xs := List.filterMap_append

/-- Appending to the log and to the records keeps the invariant where the new exchanges are producible and account for
the new records and for the mirror. -/
theorem State.Inv.append {s t : State} {xs : List Exchange} {rs : List OpResult} (h : s.Inv)
    (hlog : t.log = s.log ++ xs) (hresults : t.results = s.results ++ rs) (hcfg : t.cfg = xs.foldl mirrorAfter s.cfg)
    (hprod : ∀ x ∈ xs, producible x.sent = true) (herrors : reportedErrors rs = transportErrors xs)
    (hdata : reportedData rs = bytesRead xs) (hcoherent : t.cfg.interruptCoherent) : t.Inv where
  mirror := by
    rw [State.mirrorFollowsLog, hcfg, hlog, mirrorOfLog_append, ← h.mirror]
  log := by
    intro x hx
    rw [hlog, List.mem_append] at hx
    exact hx.elim (h.log x) (hprod x)
  reports := by
    obtain ⟨he, hd⟩ := h.reports
    constructor
    · rw [hresults, hlog, reportedErrors_append, transportErrors_append, he, herrors]
    · rw [hresults, hlog, reportedData_append, bytesRead_append, hd, hdata]
  coherent := hcoherent

/-! One new exchange and its record. -/

theorem mirrorAfter_cmd {k : CommandKind} {b : Byte} (hk : commandKind b = some k) (r : Reply) (m : Mirror) :
    mirrorAfter m ⟨.cmd b, r⟩ = m.answered k b r := by
  simp only [mirrorAfter, hk]

theorem producible_cmd {k : CommandKind} {b : Byte} (hk : commandKind b = some k) (hb : b ≠ 0xA2) :
    producible (.cmd b) = true := by
  simpa [producible, readTransaction, hk] using hb

theorem readTransaction_matrix {v : List Byte} (h : v.length = 16) :
    readTransaction (.wr 0x00 v) = some (.matrixWrite v) := by
  simp [readTransaction, displayRamStart, matrixLength, Config.rows, h]

theorem readTransaction_digits {v : List Byte} (h : v.length = 9) :
    readTransaction (.wr 0x00 v) = some (.digitWrite v) := by
  simp [readTransaction, displayRamStart, matrixLength, numericLength, Config.rows, h]

theorem producible_wr {v : List Byte} (h : v.length = 16 ∨ v.length = 9) : producible (.wr 0x00 v) = true := by
  rcases h with h | h
  · rw [producible, readTransaction_matrix h]; simp
  · rw [producible, readTransaction_digits h]; simp

theorem producible_rd : producible (.rd 0x40 6) = true := by decide

/-- The record of an answered command holds the transport's error and no data (R164). -/
theorem reports_replyRecord_cmd (b : Byte) (w : Bool) (r : Reply) :
    reportedErrors [replyRecord w r] = transportErrors [⟨.cmd b, r⟩] ∧
      reportedData [replyRecord w r] = bytesRead [⟨.cmd b, r⟩] := by
  cases r <;> exact ⟨rfl, rfl⟩

/-- The record of an answered block write holds the transport's error and no data (R164). -/
theorem reports_replyRecord_wr (a : Byte) (v : List Byte) (r : Reply) :
    reportedErrors [replyRecord false r] = transportErrors [⟨.wr a v, r⟩] ∧
      reportedData [replyRecord false r] = bytesRead [⟨.wr a v, r⟩] := by
  cases r <;> exact ⟨rfl, rfl⟩

/-- The record of an answered read holds the transport's error or its bytes (R150, R164). -/
theorem reports_readRecord (a : Byte) (n : Nat) (r : Reply) :
    reportedErrors [readRecord r] = transportErrors [⟨.rd a n, r⟩] ∧
      reportedData [readRecord r] = bytesRead [⟨.rd a n, r⟩] := by
  cases r <;> exact ⟨rfl, rfl⟩

/-- Of the interrupt bytes only `0xA2` would carry a polarity beside an output that is off (R72, R84). -/
theorem polarity_false_of_interrupt_off : ∀ b : Byte, commandKind b = some .interrupt → b ≠ 0xA2 →
    b.getLsbD 0 = false → b.getLsbD 1 = false := by decide

/-- An answered command keeps the interrupt fields coherent (R23): only INT writes them, both at once. -/
theorem interruptCoherent_answered {k : CommandKind} {b : Byte} {m : Mirror} (hk : commandKind b = some k)
    (hb : b ≠ 0xA2) (hm : m.interruptCoherent) (r : Reply) : (m.answered k b r).interruptCoherent := by
  cases k with
  | oscillator => cases r <;> exact hm
  | display => cases r <;> exact hm
  | brightness => cases r <;> exact hm
  | interrupt =>
    cases r with
    | ok v =>
      refine ⟨by simp [Mirror.record], fun h0 => ?_⟩
      have hoff : b.getLsbD 0 = false := Option.some.inj h0
      exact congrArg some (polarity_false_of_interrupt_off b hk hb hoff)
    | error e => exact ⟨Iff.rfl, nofun⟩

/-- A record that holds neither a transport's error nor data keeps the invariant, whatever it does to `JUST`. -/
theorem State.Inv.report_just {s : State} (h : s.Inv) (mode : Justification) {x : OpResult}
    (hx : reportedErrors [x] = [] ∧ reportedData [x] = []) : (({ s with just := mode } : State).report x).Inv :=
  h.append (xs := []) (rs := [x]) (List.append_nil _).symm rfl rfl nofun hx.1 hx.2 h.coherent

/-- An exchange that leaves the mirror alone, and the record that reports its answer, keep the invariant. -/
theorem State.Inv.exchange {s : State} (h : s.Inv) {x : Transaction} {r : Reply} {y : OpResult}
    (hprod : producible x = true) (hx : mirrorAfter s.cfg ⟨x, r⟩ = s.cfg)
    (hy : reportedErrors [y] = transportErrors [⟨x, r⟩] ∧ reportedData [y] = bytesRead [⟨x, r⟩]) :
    ((s.handOver x r).report y).Inv :=
  h.append (xs := [⟨x, r⟩]) (rs := [y]) rfl rfl hx.symm (by simpa using hprod) hy.1 hy.2 h.coherent

/-- Every operation keeps the invariant. -/
theorem exec_inv {i : Instr} {s t : State} (h : s.Inv) (hexec : exec i s = .next t) : t.Inv := by
  obtain ⟨k, b, w, r, hcmd, -, rfl⟩ | ⟨v, r, hw, -, rfl⟩ | ⟨r, -, -, rfl⟩ | ⟨_, -, -, rfl⟩ |
    ⟨_, _, _, _, _, -, -, rfl⟩ | ⟨mode, -, rfl⟩ := exec_cases hexec
  · obtain ⟨hk, hb⟩ := hcmd.kind
    obtain ⟨he, hd⟩ := reports_replyRecord_cmd b w r
    exact h.append (xs := [⟨.cmd b, r⟩]) (rs := [replyRecord w r]) rfl rfl (mirrorAfter_cmd hk r _).symm
      (by simpa using producible_cmd hk hb) he hd (interruptCoherent_answered hk hb h.coherent r)
  · exact h.exchange (producible_wr hw.length) rfl (reports_replyRecord_wr _ v r)
  · exact h.exchange producible_rd rfl (reports_readRecord _ _ r)
  · exact h.report_just s.just ⟨rfl, rfl⟩
  · exact h.report_just s.just ⟨rfl, rfl⟩
  · exact h.report_just mode ⟨rfl, rfl⟩

/-- The host's request list is no part of the invariant. -/
theorem State.Inv.withRequests {s : State} (h : s.Inv) (rest : List Ports) :
    ({ s with requests := rest } : State).Inv :=
  ⟨h.mirror, h.log, h.reports, h.coherent⟩

/-- Settles O40: nothing is logged, nothing reported and nothing known. -/
theorem constructionMeetsTheInvariant : Obligations.ConstructionMeetsTheInvariant := by
  intro c
  exact ⟨rfl, nofun, ⟨rfl, rfl⟩, Iff.rfl, nofun⟩

/-- Settles O41: a step waits, or runs an operation, which keeps the invariant. -/
theorem stepKeepsTheInvariant : Obligations.StepKeepsTheInvariant := by
  intro s s' h hstep
  obtain ⟨-, hwait⟩ | ⟨p, rest, i, -, -, hrun⟩ | ⟨p, rest, e, -, -, hrefuse⟩ := step_cases s
  · rw [hwait] at hstep; cases hstep; exact h
  · rw [hrun] at hstep; exact exec_inv (h.withRequests rest) hstep
  · rw [hrefuse] at hstep; cases hstep

end Sys2Proof.Machine
end

