-- ==== Sys2Proof/Proofs/Text.lean ====
section
/-! PROOFS. The lines of R74: what is written for a request is read back, first the tokens, then the numbers, then the
operands; and the operands a request may drop (R65, R67). -/

namespace Sys2Proof.Machine

/-! Tokens. -/

/-- The character ends a token (log entry 19). -/
def isSeparator (c : Char) : Bool := c = ' ' || c = ',' || c = '/'

/-- The characters make up one token: there is at least one and none ends a token. -/
def IsToken (w : List Char) : Prop := w ≠ [] ∧ ∀ c ∈ w, isSeparator c = false

/-- Characters that end no token join the one under way. -/
theorem tokensFrom_append {w : List Char} (hw : ∀ c ∈ w, isSeparator c = false) (rest cur : List Char) :
    tokensFrom (w ++ rest) cur = tokensFrom rest (w.reverse ++ cur) := by
  induction w generalizing cur with
  | nil => rfl
  | cons c w ih =>
    have hc : isSeparator c = false := hw c (by simp)
    simp only [isSeparator, Bool.or_eq_false_iff, decide_eq_false_iff_not] at hc
    obtain ⟨⟨hspace, hcomma⟩, hslash⟩ := hc
    simp only [List.cons_append, tokensFrom, hspace, hcomma, hslash, or_self, if_false]
    rw [ih (fun d hd => hw d (by simp [hd]))]
    simp

theorem endToken_reverse {w : List Char} (hw : IsToken w) : endToken w.reverse = [w] := by
  simp [endToken, hw.1]

/-- A token alone is the whole line. -/
theorem tokens_token {w : List Char} (hw : IsToken w) : tokens w = [w] := by
  have := tokensFrom_append hw.2 [] []
  rw [List.append_nil, List.append_nil] at this
  rw [tokens, this, tokensFrom, endToken_reverse hw]

/-- A space ends a token and is none. -/
theorem tokens_token_space {w : List Char} (hw : IsToken w) (rest : List Char) :
    tokens (w ++ ' ' :: rest) = w :: tokens rest := by
  rw [tokens, tokensFrom_append hw.2, List.append_nil, tokensFrom, if_pos rfl, endToken_reverse hw]
  rfl

/-- The separator of two operands ends a token and is one itself. -/
theorem tokens_token_comma {w : List Char} (hw : IsToken w) (rest : List Char) :
    tokens (w ++ (comma ++ rest)) = w :: [','] :: tokens rest := by
  rw [tokens, tokensFrom_append hw.2, List.append_nil, comma, List.cons_append, tokensFrom, if_neg (by decide),
    if_pos (.inl rfl), endToken_reverse hw]
  rfl

/-! Numbers. -/

theorem readDigit_digitChar : ∀ d : Digit, readDigit (digitChar d) = some d := by decide

theorem digitChar_not_separator : ∀ d : Digit, isSeparator (digitChar d) = false := by decide

theorem digitChar_ne_point : ∀ d : Digit, digitChar d ≠ '.' := by decide

theorem digitChar_ne_minus : ∀ d : Digit, digitChar d ≠ '-' := by decide

theorem readDigits_map_digitChar (ds : List Digit) : readDigits (ds.map digitChar) = some ds := by
  induction ds with
  | nil => rfl
  | cons d ds ih => simp [readDigits, readDigit_digitChar, ih]

/-- The digits `decFrom` puts before `acc` write `n`. -/
theorem numberOfDigits_decFrom {k n : Nat} (h : n < 10 ^ k) (hk : 0 < k) (acc : List Digit) :
    numberOfDigits (decFrom k n acc) = acc.foldl (fun m d => 10 * m + d.val) n := by
  induction k generalizing n acc with
  | zero => omega
  | succ k ih =>
    rw [Nat.pow_succ] at h
    simp only [decFrom]
    split
    next hn => simp [numberOfDigits]
    next hn =>
      have hk : 0 < k := Nat.pos_of_ne_zero (by rintro rfl; omega)
      rw [ih (by omega) hk, List.foldl_cons, show 10 * (n / 10) + n % 10 = n by omega]

theorem numberOfDigits_dec {n : Nat} (h : n < 10 ^ 10) : numberOfDigits (dec n) = n :=
  numberOfDigits_decFrom h (by decide) []

/-- The digits of a number above 0 begin with one that is not 0. -/
theorem decFrom_eq_cons {k n : Nat} (h : n < 10 ^ k) (h0 : 0 < n) (acc : List Digit) :
    ∃ d ds, decFrom k n acc = d :: ds ∧ d ≠ 0 := by
  induction k generalizing n acc with
  | zero => omega
  | succ k ih =>
    rw [Nat.pow_succ] at h
    simp only [decFrom]
    split
    next hn => exact ⟨_, _, rfl, by simp [Fin.ext_iff]; omega⟩
    next hn => exact ih (by omega) (by omega) _

/-- A written number is read back (R74): it has no leading zero. -/
theorem readNumber_dec {n : Nat} (h : n < 10 ^ 10) : readNumber ((dec n).map digitChar) = some n := by
  rcases Nat.eq_zero_or_pos n with rfl | h0
  · rfl
  · obtain ⟨d, ds, hd, hne⟩ := decFrom_eq_cons h h0 []
    have hvalue := numberOfDigits_dec h
    rw [dec, hd] at hvalue
    rw [readNumber, readDigits_map_digitChar, dec, hd]
    cases ds with
    | nil => simpa [numberOfDigits] using hvalue
    | cons d' ds => simp [hne, hvalue]

/-! Signed integers and decimals. -/

/-- The sign, written. -/
def signText (neg : Bool) : List Char := if neg then ['-'] else []

/-- The sign is told from the digits that follow it. -/
theorem readSign_signText (neg : Bool) (n : Nat) (rest : List Char) :
    readSign (signText neg ++ ((dec n).map digitChar ++ rest)) = (neg, (dec n).map digitChar ++ rest) := by
  cases neg with
  | true => rfl
  | false =>
    obtain ⟨d, ds, hd⟩ := List.exists_cons_of_length_pos (dec_length_pos n)
    rw [signText, hd]
    simp [readSign, digitChar_ne_minus]

theorem readInteger_writeInteger {n : Int} (h : n.natAbs < 10 ^ 10) : readInteger (writeInteger n) = some n := by
  have hwritten : writeInteger n = signText (decide (n < 0)) ++ ((dec n.natAbs).map digitChar ++ []) := by
    simp [writeInteger, signText, writeNumber]
  rw [readInteger, hwritten, readSign_signText, List.append_nil, readNumber_dec h]
  simp only [decide_eq_true_eq]
  split <;> congr 1 <;> omega

/-- The point and the fraction digits, written. -/
def fracText (frac : List Digit) : List Char := if frac = [] then [] else '.' :: frac.map digitChar

theorem valueText_eq (neg : Bool) (n : Nat) (frac : List Digit) :
    valueText neg n frac = signText neg ++ ((dec n).map digitChar ++ fracText frac) := by
  rw [valueText, List.append_assoc]; rfl

theorem readFrac_fracText (frac : List Digit) : readFrac (fracText frac) = some frac := by
  cases frac with
  | nil => rfl
  | cons d ds => exact readDigits_map_digitChar (d :: ds)

/-- The digits before the point end where the point or the text does. -/
theorem takeWhile_dropWhile_fracText (n : Nat) (frac : List Digit) :
    ((dec n).map digitChar ++ fracText frac).takeWhile (· ≠ '.') = (dec n).map digitChar ∧
      ((dec n).map digitChar ++ fracText frac).dropWhile (· ≠ '.') = fracText frac := by
  have hdigits : ∀ c ∈ (dec n).map digitChar, decide (c ≠ '.') = true := by
    simp [digitChar_ne_point]
  rw [List.takeWhile_append_of_pos hdigits, List.dropWhile_append_of_pos hdigits]
  cases frac <;> simp [fracText]

theorem readDecimal_valueText {n : Nat} (h : n < 10 ^ 10) (neg : Bool) (frac : List Digit) :
    readDecimal (valueText neg n frac) = some (neg, n, frac) := by
  obtain ⟨htake, hdrop⟩ := takeWhile_dropWhile_fracText n frac
  rw [readDecimal, valueText_eq, readSign_signText, htake, hdrop, readNumber_dec h, readFrac_fracText]

/-- Digits end no token. -/
theorem digits_not_separator (ds : List Digit) : ∀ c ∈ ds.map digitChar, isSeparator c = false :=
  List.forall_mem_map.mpr fun d _ => digitChar_not_separator d

theorem signText_not_separator : ∀ neg, ∀ c ∈ signText neg, isSeparator c = false := by
  simp [signText, isSeparator]

theorem fracText_not_separator (frac : List Digit) : ∀ c ∈ fracText frac, isSeparator c = false := by
  cases frac with
  | nil => exact nofun
  | cons d ds => exact List.forall_mem_cons.mpr ⟨by decide, digits_not_separator (d :: ds)⟩

theorem isToken_valueText (neg : Bool) (n : Nat) (frac : List Digit) : IsToken (valueText neg n frac) := by
  have hne : dec n ≠ [] := List.ne_nil_of_length_pos (dec_length_pos n)
  rw [valueText_eq]
  exact ⟨by simp [hne], List.forall_mem_append.mpr ⟨signText_not_separator neg,
    List.forall_mem_append.mpr ⟨digits_not_separator _, fracText_not_separator frac⟩⟩⟩

/-- An integer is written as a value without a fraction. -/
theorem writeInteger_eq_valueText (n : Int) : writeInteger n = valueText (decide (n < 0)) n.natAbs [] := by
  simp [writeInteger, valueText, writeNumber]

/-! Operands. -/

theorem readLevel_writeInteger (level : BitVec 16) : readLevel (writeInteger level.toInt) = some (false, level) := by
  have hlo := BitVec.le_toInt level
  have hhi := BitVec.toInt_lt (x := level)
  have hread := readInteger_writeInteger (n := level.toInt) (by omega)
  have hword : writeInteger level.toInt ≠ ['n', 'o', 'n', 'i', 'n', 't'] := by
    intro h; rw [h] at hread; cases hread
  simp only [readLevel, if_neg hword, hread, BitVec.ofInt_toInt]
  rw [if_pos (by omega)]

theorem readValue_valueText {n : BitVec 32} {frac : List Digit} (hfrac : frac.length ≤ 8) (neg colon : Bool) :
    readValue (valueText neg n.toNat frac) colon = some (.num 0 neg n frac colon) := by
  have hn := n.isLt
  have hread := readDecimal_valueText (n := n.toNat) (by omega) neg frac
  have hblank : valueText neg n.toNat frac ≠ ['b', 'l', 'a', 'n', 'k'] := by
    intro h; rw [h] at hread; cases hread
  have hnonnum : valueText neg n.toNat frac ≠ ['n', 'o', 'n', 'n', 'u', 'm'] := by
    intro h; rw [h] at hread; cases hread
  simp only [readValue, if_neg hblank, if_neg hnonnum, hread, BitVec.ofNat_toNat, BitVec.setWidth_eq]
  rw [if_pos ⟨hn, hfrac⟩]

/-- A row of PACK, written. -/
def rowText (cells : List Bool) : List Char := cells.map (fun b => if b then '1' else '0')

theorem readRow_rowText (cells : List Bool) : readRow (rowText cells) = some cells := by
  induction cells with
  | nil => rfl
  | cons b cells ih =>
    rw [rowText] at ih
    cases b <;> simp [rowText, readRow, ih]

theorem isToken_rowText {cells : List Bool} (h : cells ≠ []) : IsToken (rowText cells) :=
  ⟨by simpa [rowText] using h, List.forall_mem_map.mpr fun b _ => by cases b <;> decide⟩

/-! Requests: a keyword, a space and the operands. -/

theorem requestOfTokens_bright (w : List Char) :
    requestOfTokens [['B', 'R', 'I', 'G', 'H', 'T'], w] = (readLevel w).map (fun x => .bright x.1 x.2) := rfl

theorem requestOfTokens_pack (rows : List (List Char)) :
    requestOfTokens (['P', 'A', 'C', 'K'] :: rows) = readPack rows := rfl

theorem readRequest_bright (level : BitVec 16) :
    readRequest (writeRequest (.bright false level)) = some (.bright false level) := by
  have htokens : tokens (writeRequest (.bright false level))
      = [['B', 'R', 'I', 'G', 'H', 'T'], writeInteger level.toInt] := by
    have hword : IsToken (writeInteger level.toInt) := by
      rw [writeInteger_eq_valueText]; exact isToken_valueText _ _ _
    rw [← tokens_token hword]
    exact tokens_token_space (w := ['B', 'R', 'I', 'G', 'H', 'T']) (by simp [IsToken, isSeparator]) _
  rw [readRequest, htokens, requestOfTokens_bright, readLevel_writeInteger]
  rfl

theorem readRequest_pack {cells : List Bool} (h : cells.length ≤ 255) :
    readRequest (writeRequest (.pack cells)) = some (.pack cells) := by
  have htokens : tokens (writeRequest (.pack cells)) = ['P', 'A', 'C', 'K'] :: tokens (rowText cells) :=
    tokens_token_space (w := ['P', 'A', 'C', 'K']) (by simp [IsToken, isSeparator]) _
  rw [readRequest, htokens]
  by_cases hcells : cells = []
  · rw [hcells]; rfl
  · rw [tokens_token (isToken_rowText hcells)]
    simp [requestOfTokens_pack, readPack, readRows, readRow_rowText, Config.glenMax, h]

/-- Between NUM's keyword and its colon flag one token is read as the value. -/
theorem readRequest_num_value {w : List Char} (hw : IsToken w) (colon : Bool) :
    readRequest (['N', 'U', 'M', ' '] ++ w ++ comma
      ++ (if colon then ['c', 'o', 'l', 'o', 'n'] else ['n', 'o', 'c', 'o', 'l', 'o', 'n'])) = readValue w colon := by
  rw [List.append_assoc, List.append_assoc]
  have hkeyword := tokens_token_space (w := ['N', 'U', 'M']) (by simp [IsToken, isSeparator])
  rw [readRequest]
  refine (congrArg requestOfTokens ((hkeyword _).trans (congrArg _ (tokens_token_comma hw _)))).trans ?_
  cases colon <;> rfl

theorem readRequest_num {vkind : BitVec 2} {frac : List Digit} (hfrac : frac.length ≤ 8) (neg : Bool)
    (ipart : BitVec 32) (colon : Bool) :
    readRequest (writeRequest (.num vkind neg ipart frac colon))
      = some (dropIgnored (.num vkind neg ipart frac colon)) := by
  rw [writeRequest, writeValue, dropIgnored]
  cases valueKind vkind with
  | numeric => rw [readRequest_num_value (isToken_valueText _ _ _), readValue_valueText hfrac]
  | blank => rw [readRequest_num_value (by simp [IsToken, isSeparator])]; rfl
  | nonNumeric => rw [readRequest_num_value (by simp [IsToken, isSeparator])]; rfl

theorem readRequest_disp : ∀ (on : Bool) (blink : BitVec 2),
    readRequest (writeRequest (.disp on blink)) = some (.disp on blink) := by decide

/-- Settles O6: the lines of finitely many requests are read out; a level, a grid and a value are read back by the
lemmas about their texts. -/
theorem writtenRequestReadsBack : Obligations.WrittenRequestReadsBack := by
  intro i hi
  cases i with
  | osc on => cases on <;> rfl
  | disp on blink => exact readRequest_disp on blink
  | bright nonint level =>
    cases nonint with
    | true => rfl
    | false => exact readRequest_bright level
  | int enabled activeHigh => cases enabled <;> cases activeHigh <;> rfl
  | pack cells => exact readRequest_pack (of_decide_eq_true hi)
  | num vkind neg ipart frac colon => exact readRequest_num (of_decide_eq_true hi) neg ipart colon
  | setjust mode => cases mode <;> rfl
  | keyscan => rfl

/-- Settles O5: the four rates and the four codes, one by one. -/
theorem blinkCodesAreInverseToFrequency : Obligations.BlinkCodesAreInverseToFrequency := by
  refine ⟨fun r => by cases r <;> rfl, by decide, rfl, rfl, rfl, rfl, by decide⟩

/-- Settles O7: beside `nonint` the clamp and the warning look at no level (R65); a NUM that is no number looks at its
colon alone, and the codes 2 and 3 are one kind (R67). -/
theorem ignoredOperandsHaveNoEffect : Obligations.IgnoredOperandsHaveNoEffect := by
  intro i s
  cases i with
  | bright nonint level => cases nonint <;> rfl
  | num vkind neg ipart frac colon =>
    rw [dropIgnored]
    cases h : valueKind vkind <;> simp only [exec, execNum, h] <;> rfl
  | osc on => rfl
  | disp on blink => rfl
  | int enabled activeHigh => rfl
  | pack cells => rfl
  | setjust mode => rfl
  | keyscan => rfl

end Sys2Proof.Machine
end

