-- ==== Sys2Proof/Proofs/Board.lean ====
section
/-! PROOFS. Configuring a board (R5, R121, R182): what is refused, what is kept, and the point bit of the glyphs. -/

namespace Sys2Proof.Machine

/-- The check on a glyph table's patterns: bit 7 is clear in each (R121). -/
theorem all_glyphs_clear_iff (digits : Vector Byte 10) (minus : Byte) :
    (digits.toList ++ [minus]).all (fun b => !b.msb) = true ↔
      (∀ d : Digit, digits[d].getLsbD 7 = false) ∧ minus.getLsbD 7 = false := by
  simp only [List.all_append, List.all_cons, List.all_nil, Bool.and_true, Bool.and_eq_true, Bool.not_eq_true',
    List.all_eq_true, BitVec.msb_eq_getLsbD_last]
  refine and_congr_left fun _ => ⟨fun h d => h _ (by simp), fun h b hb => ?_⟩
  obtain ⟨k, hk, rfl⟩ := Vector.getElem_of_mem (Vector.mem_toList_iff.mp hb)
  exact h ⟨k, hk⟩

/-- A pattern with bit 7 clear is kept whole in its seven bits. -/
theorem setWidth_setWidth_of_bit_clear : ∀ b : Byte, b.getLsbD 7 = false → (b.setWidth 7).setWidth 8 = b := by decide

theorem configure?_of_rows_ne {rows : Nat} (h : rows ≠ 8) (cols : Nat) (quirk : Bool) (digits : Vector Byte 10)
    (minus : Byte) : configure? cols rows quirk digits minus = none := if_neg h

theorem configure?_of_bit_set {digits : Vector Byte 10} {minus : Byte}
    (h : ¬ ((∀ d : Digit, digits[d].getLsbD 7 = false) ∧ minus.getLsbD 7 = false)) (cols rows : Nat) (quirk : Bool) :
    configure? cols rows quirk digits minus = none := by
  rw [← all_glyphs_clear_iff] at h
  simp [configure?, glyphTable?, h]

theorem configure?_of_bit_clear {digits : Vector Byte 10} {minus : Byte}
    (h : (∀ d : Digit, digits[d].getLsbD 7 = false) ∧ minus.getLsbD 7 = false) (cols : Nat) (quirk : Bool) :
    configure? cols 8 quirk digits minus = some { cols := cols, quirk := quirk, glyphs :=
      { digit := digits.map (·.setWidth 7), minus := minus.setWidth 7 } } := by
  rw [← all_glyphs_clear_iff] at h
  simp [configure?, glyphTable?, h, Config.rows]

/-- Settles O13: a wrong row count and a set bit 7 are refused; else the glyphs are kept, bit 7 being clear. -/
theorem configureKeepsOrRefusesItsArguments : Obligations.ConfigureKeepsOrRefusesItsArguments := by
  intro cols rows quirk digits minus
  refine ⟨fun hrows => configure?_of_rows_ne hrows _ _ _ _, fun hset => ?_, ?_⟩
  · refine configure?_of_bit_set (fun hclear => ?_) cols rows quirk
    obtain hminus | ⟨d, hd⟩ := hset
    · exact Bool.false_ne_true (hclear.2.symm.trans hminus)
    · exact Bool.false_ne_true ((hclear.1 d).symm.trans hd)
  · rintro rfl hminus hdigits
    refine ⟨_, configure?_of_bit_clear ⟨hdigits, hminus⟩ cols quirk, rfl, rfl, fun d => ?_, ?_⟩
    · simpa [glyph] using setWidth_setWidth_of_bit_clear _ (hdigits d)
    · exact setWidth_setWidth_of_bit_clear _ hminus

/-- A pattern of seven bits leaves bit 7 of its byte clear. -/
theorem getLsbD_seven_setWidth (x : BitVec 7) : (x.setWidth 8).getLsbD 7 = false := by
  simp

theorem glyph_getLsbD_seven (g : GlyphTable) (c : GlyphChar) : (glyph g c).getLsbD 7 = false := by
  cases c with
  | digit d => exact getLsbD_seven_setWidth _
  | minus => exact getLsbD_seven_setWidth _
  | colon => rw [glyph_colon]; decide

/-- Settles O14. -/
theorem glyphsLeaveThePointBitClear : Obligations.GlyphsLeaveThePointBitClear :=
  fun g => ⟨glyph_getLsbD_seven g, glyph_colon g⟩

/-- Settles O12: every field of a constructed state is written out in its definition, and an empty log puts nothing in
display RAM. -/
theorem constructionStartsEmpty : Obligations.ConstructionStartsEmpty :=
  fun _ => ⟨rfl, rfl, rfl, rfl, rfl, rfl, rfl, rfl, rfl, rfl, fun _ => rfl⟩

end Sys2Proof.Machine
end

