-- ==== Sys2Proof/Proofs/Framebuffer.lean ====
section
/-! PROOFS. The bits of the packed buffer (R45, R103), the rotation quirk (R104), and that the grid is recovered from
the buffer (R106). -/

namespace Sys2Proof.Machine

/-! The buffer with and without the quirk. -/

theorem packBuffer_of_quirk_false {c : Config} (h : c.quirk = false) (cells : List Bool) :
    packBuffer c cells = packRows c.cols cells := by simp [packBuffer, applyQuirk, h]

theorem packBuffer_of_quirk {c : Config} (h : c.quirk = true) (cells : List Bool) :
    packBuffer c cells = (packRows c.cols cells).map ror8 := by simp [packBuffer, applyQuirk, h]

/-- Eight cells of the grid are the bits of the byte packed from them (R103). -/
theorem getElem?_eq_packByte_bit {cells : List Bool} {base : Nat} (hbase : base + 8 ≤ cells.length) {i : Nat}
    (hi : i < 8) :
    cells[base + i]? = some ((packByte cells base).getLsbD i) := by
  rw [packByte_getLsbD cells base i hi, cellAt_getElem? (by omega)]

/-- Rotating left undoes the rotation right. -/
theorem rotateLeft_ror8 : ∀ b : Byte, (ror8 b).rotateLeft 1 = b := by decide

theorem ror8_rotateLeft : ∀ b : Byte, ror8 (b.rotateLeft 1) = b := by decide

theorem ror8_injective : Function.Injective ror8 :=
  Function.LeftInverse.injective (g := fun b : Byte => b.rotateLeft 1) rotateLeft_ror8

/-- Rotating eight times brings every bit back to its place. -/
theorem ror8_eight_times : ∀ b : Byte, ror8 (ror8 (ror8 (ror8 (ror8 (ror8 (ror8 (ror8 b))))))) = b := by decide

/-- Rotating twice fixes the bytes in which every other bit is the same. -/
theorem ror8_ror8_eq_iff : ∀ b : Byte, ror8 (ror8 b) = b ↔ b = 0x00 ∨ b = 0x55 ∨ b = 0xAA ∨ b = 0xFF := by decide

/-- Settles O24. -/
theorem rotationIsABijectionAndNoInvolution : Obligations.RotationIsABijectionAndNoInvolution :=
  fun b => ⟨rotateLeft_ror8 b, ror8_rotateLeft b, ror8_eight_times b, ror8_ror8_eq_iff b⟩

/-- Settles O21: row `r` is packed from cell `8r` on, and its second byte is the pad. -/
theorem eightColumnBytesBitByBit : Obligations.EightColumnBytesBitByBit := by
  intro c cells hcols hquirk hlen
  refine ⟨packBuffer_length c cells, fun r hr => ?_⟩
  rw [packBuffer_of_quirk_false hquirk, hcols]
  obtain ⟨hlo, hpad⟩ := packRows_getElem? 8 cells r hr
  refine ⟨_, hlo, hpad, fun i hi => ?_⟩
  rw [Nat.mul_comm 8 r]
  exact getElem?_eq_packByte_bit (by omega) hi

/-- Settles O22: row `r` is packed from cell `16r` and from cell `16r + 8` on. -/
theorem sixteenColumnBytesBitByBit : Obligations.SixteenColumnBytesBitByBit := by
  intro c cells hcols hquirk hlen
  refine ⟨packBuffer_length c cells, fun r hr => ?_⟩
  rw [packBuffer_of_quirk_false hquirk, hcols]
  obtain ⟨hlo, hhi⟩ := packRows_getElem? 16 cells r hr
  refine ⟨_, _, hlo, hhi, fun i hi => ?_⟩
  rw [Nat.mul_comm 16 r]
  exact ⟨getElem?_eq_packByte_bit (by omega) hi, getElem?_eq_packByte_bit (by omega) hi⟩

/-- Settles O23: the quirk maps the rotation over the buffer. -/
theorem quirkRotatesEveryByte : Obligations.QuirkRotatesEveryByte := by
  intro c cells k b hb
  rw [packBuffer_of_quirk_false rfl] at hb
  refine ⟨ror8 b, ?_, ror8_getLsbD b 7 (by decide), fun i hi => ?_⟩
  · rw [packBuffer_of_quirk rfl, List.getElem?_map, hb]; rfl
  · rw [ror8_getLsbD b i (by omega), Nat.mod_eq_of_lt (by omega)]

/-- Every cell of a grid stands in one bit of its rows, at a place the column count alone decides (R103). -/
theorem exists_packRows_bit {cols k : Nat} (hcols : cols = 8 ∨ cols = 16) (hk : k < cols * 8) :
    ∃ j i, ∀ cells, cellAt cells k = ((packRows cols cells).getD j 0x00).getLsbD i := by
  rcases hcols with rfl | rfl
  · refine ⟨2 * (k / 8), k % 8, fun cells => ?_⟩
    rw [List.getD_eq_getElem?_getD, (packRows_getElem? 8 cells (k / 8) (by omega)).1, Option.getD_some,
      packByte_getLsbD _ _ _ (by omega), Nat.div_add_mod']
  · by_cases hlo : k % 16 < 8
    · refine ⟨2 * (k / 16), k % 16, fun cells => ?_⟩
      rw [List.getD_eq_getElem?_getD, (packRows_getElem? 16 cells (k / 16) (by omega)).1, Option.getD_some,
        packByte_getLsbD _ _ _ hlo, Nat.div_add_mod']
    · refine ⟨2 * (k / 16) + 1, k % 16 - 8, fun cells => ?_⟩
      rw [List.getD_eq_getElem?_getD, (packRows_getElem? 16 cells (k / 16) (by omega)).2, if_pos rfl,
        Option.getD_some, packByte_getLsbD _ _ _ (by omega)]
      congr 1
      omega

/-- The rows determine the grid. -/
theorem packRows_injective {cols : Nat} {g h : List Bool} (hcols : cols = 8 ∨ cols = 16) (hg : g.length = cols * 8)
    (hh : h.length = cols * 8) (heq : packRows cols g = packRows cols h) : g = h := by
  refine List.ext_getElem? fun k => ?_
  by_cases hk : k < cols * 8
  · obtain ⟨j, i, hbit⟩ := exists_packRows_bit hcols hk
    rw [cellAt_getElem? (hg ▸ hk), cellAt_getElem? (hh ▸ hk), hbit, hbit, heq]
  · rw [List.getElem?_eq_none (by omega), List.getElem?_eq_none (by omega)]

/-- Settles O25: the rotation loses nothing, and neither do the rows. -/
theorem packIsInjective : Obligations.PackIsInjective := by
  intro c g h hcols hg hh heq
  refine packRows_injective hcols hg hh ?_
  cases hquirk : c.quirk with
  | false => rwa [packBuffer_of_quirk_false hquirk, packBuffer_of_quirk_false hquirk] at heq
  | true =>
    rw [packBuffer_of_quirk hquirk, packBuffer_of_quirk hquirk] at heq
    exact List.map_injective_iff.mpr ror8_injective heq

theorem packRows_dark : packRows 8 (List.replicate 64 false) = List.replicate 16 0x00 := by decide

theorem packRows_lit : packRows 8 (List.replicate 64 true)
    = [0xFF, 0x00, 0xFF, 0x00, 0xFF, 0x00, 0xFF, 0x00, 0xFF, 0x00, 0xFF, 0x00, 0xFF, 0x00, 0xFF, 0x00] := by decide

/-- Settles O26: rotating changes neither a dark nor a lit byte. -/
theorem uniformGridsPackAsTheSourceSays : Obligations.UniformGridsPackAsTheSourceSays := by
  intro c hcols
  cases hquirk : c.quirk with
  | false =>
    rw [packBuffer_of_quirk_false hquirk, packBuffer_of_quirk_false hquirk, hcols]
    exact ⟨packRows_dark, packRows_lit⟩
  | true =>
    rw [packBuffer_of_quirk hquirk, packBuffer_of_quirk hquirk, hcols, packRows_dark, packRows_lit]
    decide

/-- Settles O27: the pad is zero in the rows, and rotating zero gives zero. -/
theorem eightColumnPadBytesStayZero : Obligations.EightColumnPadBytesStayZero := by
  intro c cells r hcols hr
  have hpad : (packRows c.cols cells)[2 * r + 1]? = some 0x00 := by
    rw [hcols]; exact (packRows_getElem? 8 cells r hr).2
  cases hquirk : c.quirk with
  | false => rw [packBuffer_of_quirk_false hquirk, hpad]
  | true => rw [packBuffer_of_quirk hquirk, List.getElem?_map, hpad]; rfl

end Sys2Proof.Machine
end

