-- ==== Sys2Proof/Proofs/Commands.lean ====
section
/-! PROOFS. The command encoder (R80 to R85), SETJUST and KEYSCAN: each operation's whole next state; and the bytes told
apart by R71's table (R70, R72). -/

namespace Sys2Proof.Machine
open Sys2Proof.Claims

/-! An answered command: the mirror takes what the answer makes known, the record follows it (R80). -/

theorem command_answers_ok {k : CommandKind} {b : Byte} {w : Bool} {s : State} {v : Vector Byte 6}
    (h : s.peek (.cmd b) = .reply (.ok v)) :
    command k b w s = .next (sent s (.cmd b) (.ok v) (s.cfg.record k b) (done w)) :=
  command_answers h

theorem command_answers_error {k : CommandKind} {b : Byte} {w : Bool} {s : State} {e : TransportErr}
    (h : s.peek (.cmd b) = .reply (.error e)) :
    command k b w s = .next (sent s (.cmd b) (.error e) (s.cfg.forget k) (failed w (.transportError e))) :=
  command_answers h

/-! The bytes, as R81 to R84 write them, and the fields they carry (R24). -/

theorem oscByte_eq : ∀ on, oscByte on = if on then 0x21 else 0x20 := by decide

theorem record_oscByte (m : Mirror) : ∀ on, m.record .oscillator (oscByte on) = { m with oscillatorOn := some on }
  | false => rfl
  | true => rfl

theorem dispByte_eq : ∀ on blink, dispByte on blink = BitVec.ofNat 8 (0x80 + 2 * blink.toNat + on.toNat) := by decide

theorem dispByte_fields : ∀ on blink,
    (dispByte on blink).getLsbD 0 = on ∧ (dispByte on blink).extractLsb' 1 2 = blink := by decide

theorem record_dispByte (m : Mirror) (on : Bool) (blink : BitVec 2) :
    m.record .display (dispByte on blink) = { m with displayOn := some on, blinkRate := some blink } := by
  obtain ⟨hon, hblink⟩ := dispByte_fields on blink
  rw [Mirror.record, hon, hblink]

theorem brightByte_eq {n : Nat} (h : n ≤ 15) : brightByte n = BitVec.ofNat 8 (0xE0 + n) := by
  interval_cases n <;> rfl

theorem brightByte_level {n : Nat} (h : n ≤ 15) : (brightByte n).extractLsb' 0 4 = BitVec.ofNat 4 n := by
  interval_cases n <;> rfl

theorem record_brightByte (m : Mirror) {n : Nat} (h : n ≤ 15) :
    m.record .brightness (brightByte n) = { m with brightness := some (BitVec.ofNat 4 n) } := by
  rw [Mirror.record, brightByte_level h]

/-- The level sent is the operand's own where it lies in range (R65). -/
theorem clampBrightness_eq (nonint : Bool) (level : BitVec 16) :
    clampBrightness nonint level.toInt =
      if nonint then 0 else if level.toInt < 0 then 0 else if 15 < level.toInt then 15 else level.toNat := by
  have hnonneg : ¬ level.toInt < 0 → level.toInt.toNat = level.toNat := by
    intro h; rw [BitVec.toInt_eq_toNat_cond] at h ⊢; split at h <;> omega
  rw [clampBrightness, show ((maxBrightness : Nat) : Int) = 15 from rfl]
  split_ifs with hn hneg hhi
  · rfl
  · rfl
  · rfl
  · exact hnonneg hneg

/-- Settles O15. -/
theorem oscSendsItsByte : Obligations.OscSendsItsByte := by
  refine ⟨fun p => decode_of_op_zero, fun on s => ?_⟩
  dsimp only
  rw [← oscByte_eq on, ← record_oscByte]
  exact ⟨fun v hv => command_answers_ok hv, fun e he => command_answers_error he⟩

/-- Settles O16. -/
theorem dispSendsItsByte : Obligations.DispSendsItsByte := by
  refine ⟨fun p => decode_of_op_one, fun on blink s => ?_⟩
  dsimp only
  rw [← dispByte_eq on blink, ← record_dispByte]
  exact ⟨fun v hv => command_answers_ok hv, fun e he => command_answers_error he⟩

/-- Settles O17: the clamped level is at most 15, so it stands in the byte's low four bits. -/
theorem brightClampsAndSends : Obligations.BrightClampsAndSends := by
  refine ⟨fun p => decode_of_op_two, fun nonint level s => ?_⟩
  have hle := clampBrightness_le nonint level.toInt
  dsimp only
  rw [← clampBrightness_eq, ← brightByte_eq hle, ← record_brightByte _ hle]
  exact ⟨fun v hv => command_answers_ok hv, fun e he => command_answers_error he⟩

/-- Settles O18: off, active-low and active-high, one by one. -/
theorem intSendsItsByte : Obligations.IntSendsItsByte := by
  refine ⟨fun p => decode_of_op_three, fun enabled activeHigh s => ?_⟩
  cases enabled <;> cases activeHigh <;>
    exact ⟨fun v hv => command_answers_ok hv, fun e he => command_answers_error he⟩

/-- Settles O36. -/
theorem setjustSetsTheMode : Obligations.SetjustSetsTheMode :=
  ⟨fun _ => decode_of_op_six, fun _ _ => rfl⟩

/-- Settles O37: an answered read ends with the bytes or with the error. -/
theorem keyscanReturnsTheBytesUntouched : Obligations.KeyscanReturnsTheBytesUntouched :=
  ⟨fun _ => decode_of_op_seven, fun _ => ⟨fun _ hv => readBlock_answers hv, fun _ he => readBlock_answers he⟩⟩

/-- Settles O51: each byte's row and its fields, read off the table. -/
theorem commandBytesReadBack : Obligations.CommandBytesReadBack := by
  refine ⟨by decide, by decide, by decide, fun n hn => ?_⟩
  interval_cases n <;> decide

/-- A write from another address, or of another length, is none of R71's. -/
theorem readTransaction_wr_eq_none {a : Byte} {v : List Byte} (h : ¬ (a = 0x00 ∧ (v.length = 16 ∨ v.length = 9))) :
    readTransaction (.wr a v) = none := by
  by_cases ha : a = 0x00
  · obtain ⟨h16, h9⟩ := not_or.mp fun hlen => h ⟨ha, hlen⟩
    exact (if_pos ha).trans ((if_neg h16).trans (if_neg h9))
  · exact if_neg ha

/-- A write is producible exactly from `0x00` with the length of a matrix or of a number (R43, R47). -/
theorem producible_wr_iff (a : Byte) (v : List Byte) :
    producible (.wr a v) = true ↔ a = 0x00 ∧ (v.length = 16 ∨ v.length = 9) := by
  refine ⟨fun h => ?_, ?_⟩
  · by_contra hbad
    rw [producible, readTransaction_wr_eq_none hbad] at h
    cases h
  · rintro ⟨rfl, hlen⟩
    exact producible_wr hlen

/-- A read is producible exactly as the key-scan's (R43). -/
theorem producible_rd_iff (a : Byte) (n : Nat) : producible (.rd a n) = true ↔ a = 0x40 ∧ n = 6 := by
  refine ⟨fun h => ?_, ?_⟩
  · by_contra hbad
    rw [producible, readTransaction, keyScanStart, keyScanLength, if_neg hbad] at h
    cases h
  · rintro ⟨rfl, rfl⟩
    exact producible_rd

/-- Settles O52. -/
theorem producibleTransactionsAreThoseListed : Obligations.ProducibleTransactionsAreThoseListed := by
  exact ⟨by decide, producible_wr_iff, producible_rd_iff⟩

end Sys2Proof.Machine
end

