-- ==== Sys2Proof/Proofs/Effects.lean ====
section
/-! PROOFS. What an operation is before any state is looked at (R23, R27, R49): its operands, the board and `JUST` give
one transaction with what its answer does, or one result record. No operation is refused, only a silent transport holds
one (R189), and history, geometry and quirk reach none but PACK (R104). -/

namespace Sys2Proof.Machine

/-- An operation with its operands worked out. -/
inductive Effect where
  /-- One transaction; what its answer does to the mirror (R24), and the record it ends with. -/
  | exchange (t : Transaction) (update : Reply → Mirror → Mirror) (record : Reply → OpResult)
  /-- No transaction: the value of `JUST` afterwards, and the record. -/
  | quiet (just : Justification) (r : OpResult)

/-- What an effect does to a state. -/
def Effect.run : Effect → State → Outcome
  | .exchange t update record, s =>
    transact t (fun r s' => ({ s' with cfg := update r s'.cfg } : State).report (record r)) s
  | .quiet just r, s => .next (({ s with just := just } : State).report r)

/-- A command of kind `k` with byte `b` (R80). -/
def commandEffect (k : CommandKind) (b : Byte) (warn : Bool) : Effect :=
  .exchange (.cmd b) (Mirror.answered k b) (replyRecord warn)

/-- A block write from the start of display RAM (R105, R132). -/
def writeEffect (data : List Byte) : Effect :=
  .exchange (.wr displayRamStart data) (fun _ m => m) (replyRecord false)

/-- The effect of an operation; the board and `JUST` are all it takes from the state. -/
def effectOf (c : Config) (just : Justification) : Instr → Effect
  | .osc on => commandEffect .oscillator (oscByte on) false
  | .disp on blink => commandEffect .display (dispByte on blink) false
  | .bright nonint level =>
    commandEffect .brightness (brightByte (clampBrightness nonint level.toInt)) (invalidBrightness nonint level.toInt)
  | .int enabled activeHigh => commandEffect .interrupt (intByte enabled activeHigh) false
  | .pack cells =>
    if geometryOk c cells.length then writeEffect (packBuffer c cells)
    else .quiet just (errorRecord false .invalidGeometry)
  | .num vkind neg ipart frac colon =>
    match valueKind vkind with
    | .nonNumeric => .quiet just (errorRecord false .invalidValueType)
    | .blank => writeEffect ((showBlank colon).bytes c.glyphs)
    | .numeric => writeEffect ((showNumber c.glyphs just neg ipart.toNat frac colon).bytes c.glyphs)
  | .setjust mode => .quiet mode (returnRecord false none)
  | .keyscan => .exchange (.rd keyScanStart keyScanLength) (fun _ m => m) readRecord

/-- Every operation is its effect (R11). -/
theorem exec_eq_run (i : Instr) (s : State) : exec i s = (effectOf s.board s.just i).run s := by
  cases i with
  | osc on => rfl
  | disp on blink => rfl
  | bright nonint level => rfl
  | int enabled activeHigh => rfl
  | pack cells => simp only [exec, execPack, effectOf]; split <;> rfl
  | num vkind neg ipart frac colon => simp only [exec, execNum, effectOf]; cases valueKind vkind <;> rfl
  | setjust mode => rfl
  | keyscan => rfl

/-- All an effect can do. -/
theorem Effect.run_cases (e : Effect) (s : State) :
    (∃ t update record r, e = .exchange t update record ∧ s.peek t = .reply r ∧
      e.run s = .next (({ s.handOver t r with cfg := update r s.cfg } : State).report (record r))) ∨
    (∃ t update record, e = .exchange t update record ∧ s.peek t = .silent ∧
      e.run s = .fault (.transportSilent t)) ∨
    (∃ just r, e = .quiet just r ∧ e.run s = .next (({ s with just := just } : State).report r)) := by
  cases e with
  | exchange t update record =>
    obtain ⟨r, hr, h⟩ | ⟨hs, h⟩ := transact_cases t
      (fun r s' => ({ s' with cfg := update r s'.cfg } : State).report (record r)) s
    · exact .inl ⟨t, update, record, r, rfl, hr, h⟩
    · exact .inr (.inl ⟨t, update, record, rfl, hs, h⟩)
  | quiet just r => exact .inr (.inr ⟨just, r, rfl, rfl⟩)

/-- An exchange that ended was answered. -/
theorem Effect.run_exchange_next {t : Transaction} {update : Reply → Mirror → Mirror} {record : Reply → OpResult}
    {s s' : State} (h : (Effect.exchange t update record).run s = .next s') :
    ∃ r, s.peek t = .reply r ∧ s' = ({ s.handOver t r with cfg := update r s.cfg } : State).report (record r) := by
  rw [Effect.run] at h
  exact transact_next h

/-- Of two logs longer by one exchange the new exchanges are the same if the logs are. -/
theorem log_append_inj {log : List Exchange} {x y : Transaction} {r q : Reply}
    (h : log ++ [⟨x, r⟩] = log ++ [⟨y, q⟩]) : x = y ∧ r = q := by
  simpa using h

/-- Settles O38: an effect is never refused, and without a silent transport it ends. -/
theorem everyOperationCompletesWhereTheTransportAnswers :
    Obligations.EveryOperationCompletesWhereTheTransportAnswers := by
  intro i s
  rw [exec_eq_run]
  obtain ⟨t, _, _, r, -, -, h⟩ | ⟨t, _, _, -, hs, h⟩ | ⟨_, _, -, h⟩ := (effectOf s.board s.just i).run_cases s <;>
    rw [h]
  · exact ⟨nofun, fun _ => ⟨_, rfl⟩⟩
  · refine ⟨nofun, fun hanswers => ?_⟩
    obtain ⟨r, hr⟩ := hanswers t
    rw [hs] at hr
    cases hr
  · exact ⟨nofun, fun _ => ⟨_, rfl⟩⟩

/-- An operation that logs an exchange handed over its transaction, and is held there by a silent transport (R189). -/
theorem Effect.run_silent {e : Effect} {s u : State} {t : Transaction} {r : Reply} {draws : List Draw}
    (h : e.run { s with draws := .reply r :: draws } = .next u) (hlog : u.log = s.log ++ [⟨t, r⟩]) :
    e.run { s with draws := .silent :: draws } = .fault (.transportSilent t) := by
  cases e with
  | exchange t' update record =>
    rw [Effect.run, transact_answers (peek_cons _ _ _ _ rfl)] at h
    cases h
    obtain ⟨rfl, -⟩ := log_append_inj hlog
    rw [Effect.run, transact_silent (peek_cons _ _ _ _ rfl)]
  | quiet just x =>
    cases h
    simp at hlog

/-- Settles O39. -/
theorem onlyASilentTransportHoldsAStep : Obligations.OnlyASilentTransportHoldsAStep := by
  refine ⟨fun i s f hf => ?_, fun i s u t r h hlog => ?_, fun mode s => ⟨_, rfl⟩⟩
  · rw [exec_eq_run] at hf
    obtain ⟨_, _, _, _, -, -, h⟩ | ⟨t, _, _, -, hs, h⟩ | ⟨_, _, -, h⟩ := (effectOf s.board s.just i).run_cases s <;>
      rw [h] at hf
    · cases hf
    · cases hf; exact ⟨t, rfl, hs⟩
    · cases hf
  · rw [exec_eq_run] at h ⊢
    exact Effect.run_silent h hlog

/-- One effect, run on two states, hands over the same transaction and gives one record for one answer. -/
theorem Effect.run_next_run_next {e : Effect} {s₁ s₂ t₁ t₂ : State} (h₁ : e.run s₁ = .next t₁)
    (h₂ : e.run s₂ = .next t₂) :
    (∃ xs, t₁.trace = s₁.trace ++ xs ∧ t₂.trace = s₂.trace ++ xs) ∧
    ((∀ x, s₁.peek x = s₂.peek x) → ∃ r, t₁.results = s₁.results ++ [r] ∧ t₂.results = s₂.results ++ [r]) := by
  cases e with
  | exchange t update record =>
    obtain ⟨r₁, hr₁, rfl⟩ := Effect.run_exchange_next h₁
    obtain ⟨r₂, hr₂, rfl⟩ := Effect.run_exchange_next h₂
    refine ⟨⟨[t], by simp [State.trace], by simp [State.trace]⟩, fun hpeek => ?_⟩
    have hr : r₁ = r₂ := by rw [hpeek t, hr₂] at hr₁; cases hr₁; rfl
    exact ⟨record r₁, rfl, by rw [hr]; rfl⟩
  | quiet just r =>
    cases h₁
    cases h₂
    exact ⟨⟨[], by simp [State.trace], by simp [State.trace]⟩, fun _ => ⟨r, rfl, rfl⟩⟩

/-- Settles O47: on the same board with the same `JUST` an operation has one effect. -/
theorem historyReachesNoTransaction : Obligations.HistoryReachesNoTransaction := by
  intro i s₁ s₂ t₁ t₂ hboard hjust h₁ h₂
  rw [exec_eq_run, hboard, hjust] at h₁
  rw [exec_eq_run] at h₂
  exact Effect.run_next_run_next h₁ h₂

/-- Only PACK looks at the geometry and the quirk. -/
theorem effectOf_cols_quirk {i : Instr} (hi : ∀ cells, i ≠ .pack cells) (c : Config) (just : Justification)
    (cols : Nat) (quirk : Bool) : effectOf { c with cols := cols, quirk := quirk } just i = effectOf c just i := by
  cases i with
  | pack cells => exact absurd rfl (hi cells)
  | osc on => rfl
  | disp on blink => rfl
  | bright nonint level => rfl
  | int enabled activeHigh => rfl
  | num vkind neg ipart frac colon => rfl
  | setjust mode => rfl
  | keyscan => rfl

/-- An effect does not look at the board and keeps it. -/
theorem Effect.run_board {e : Effect} {s t : State} (h : e.run s = .next t) (c : Config) :
    t.board = s.board ∧ e.run { s with board := c } = .next { t with board := c } := by
  cases e with
  | exchange x update record =>
    obtain ⟨r, hr, rfl⟩ := Effect.run_exchange_next h
    have hr' : ({ s with board := c } : State).peek x = .reply r := hr
    refine ⟨rfl, ?_⟩
    rw [Effect.run, transact_answers hr']
    rfl
  | quiet just r =>
    cases h
    exact ⟨rfl, rfl⟩

/-- Settles O48. -/
theorem geometryAndQuirkReachPackAlone : Obligations.GeometryAndQuirkReachPackAlone := by
  intro i s t cols quirk hi h
  rw [exec_eq_run] at h ⊢
  obtain ⟨hboard, hrun⟩ := Effect.run_board h { s.board with cols := cols, quirk := quirk }
  rw [effectOf_cols_quirk hi, hrun, hboard]

end Sys2Proof.Machine
end

