-- ==== Sys2Proof/Proofs/Steps.lean ====
section
/-! PROOFS. What a step does with the host's requests (R11, R30, R67, R72), and what an operation keeps, writes and
reports (R22, R23, R48, R161, R164): all of it read off `exec_cases`. -/

namespace Sys2Proof.Machine
open Sys2Proof.Claims

/-! The step. -/

theorem step_of_decode {s : State} {p : Ports} {rest : List Ports} {i : Instr} (hr : s.requests = p :: rest)
    (hd : decode p = .ok i) : step s = exec i { s with requests := rest } := by simp [step, hr, hd]

theorem step_of_decode_error {s : State} {p : Ports} {rest : List Ports} {e : DecodeError}
    (hr : s.requests = p :: rest) (hd : decode p = .error e) : step s = .refused (.malformedRequest e) := by
  simp [step, hr, hd, refuseRequest]

/-- Settles O8. -/
theorem stepRunsTheDecodedRequest : Obligations.StepRunsTheDecodedRequest := fun _ _ _ _ => step_of_decode

/-- Settles O9: the step refuses what the decoder refuses. -/
theorem stepRefusesMalformedRequest : Obligations.StepRefusesMalformedRequest := fun _ _ _ hr hop =>
  ⟨fun hcount => step_of_decode_error hr (decode_error_of_count hop hcount),
    fun hcount hdigit => step_of_decode_error hr (decode_error_of_digit hop hcount hdigit)⟩

/-- Settles O10. -/
theorem waitingStepKeepsTheState : Obligations.WaitingStepKeepsTheState := by
  intro s hs
  simp [step, hs]

theorem decode_of_decodeTableWord {nbits w : Nat} {i : Instr} (h : decodeTableWord nbits w = some i) :
    decode (tableWordPorts nbits w) = .ok i := by
  rw [decodeTableWord] at h
  split at h
  next i' hi => rw [hi, Option.some.inj h]
  next => cases h

/-- Settles O11: the placed request is first on the list, and taking it off leaves the state as it was. -/
theorem placedWordRunsNext : Obligations.PlacedWordRunsNext := fun _ nbits w _ h =>
  step_of_decode (withFetchWord_requests nbits w _) (decode_of_decodeTableWord h)

/-! What an operation keeps. -/

/-- No operation touches the board or the host's list (R25, R50). -/
theorem exec_frame {i : Instr} {s t : State} (h : exec i s = .next t) :
    t.board = s.board ∧ t.requests = s.requests := by
  obtain ⟨_, _, _, _, -, -, rfl⟩ | ⟨_, _, -, -, rfl⟩ | ⟨_, -, -, rfl⟩ | ⟨_, -, -, rfl⟩ |
    ⟨_, _, _, _, _, -, -, rfl⟩ | ⟨_, -, rfl⟩ := exec_cases h <;> exact ⟨rfl, rfl⟩

/-- Settles O44. -/
theorem configurationNeverChanges : Obligations.ConfigurationNeverChanges := by
  intro s s' h
  obtain ⟨hr, hwait⟩ | ⟨p, rest, i, hr, -, hrun⟩ | ⟨p, rest, e, -, -, hrefuse⟩ := step_cases s
  · rw [hwait] at h; cases h; rw [hr]; exact ⟨rfl, rfl⟩
  · rw [hrun] at h; rw [hr]; exact exec_frame h
  · rw [hrefuse] at h; cases h

/-- Settles O45: of the six things an operation can do, one writes `JUST`. -/
theorem onlySetjustWritesJust : Obligations.OnlySetjustWritesJust := by
  intro i s t h hjust
  obtain ⟨_, _, _, _, -, -, rfl⟩ | ⟨_, _, -, -, rfl⟩ | ⟨_, -, -, rfl⟩ | ⟨_, -, -, rfl⟩ |
    ⟨_, _, _, _, _, -, -, rfl⟩ | ⟨mode, hi, rfl⟩ := exec_cases h
  · exact absurd rfl hjust
  · exact absurd rfl hjust
  · exact absurd rfl hjust
  · exact absurd rfl hjust
  · exact absurd rfl hjust
  · exact ⟨mode, hi, rfl⟩

/-! The mirror. -/

/-- An operation leaves the mirror alone, or is a command and does what its answer makes known (R24). -/
theorem exec_cfg {i : Instr} {s t : State} (h : exec i s = .next t) :
    t.cfg = s.cfg ∨ ∃ k b w r, CommandOf i k b w ∧ t.cfg = s.cfg.answered k b r := by
  obtain ⟨k, b, w, r, hcmd, -, rfl⟩ | ⟨_, _, -, -, rfl⟩ | ⟨_, -, -, rfl⟩ | ⟨_, -, -, rfl⟩ |
    ⟨_, _, _, _, _, -, -, rfl⟩ | ⟨_, -, rfl⟩ := exec_cases h
  · exact .inr ⟨k, b, w, r, hcmd, rfl⟩
  all_goals exact .inl rfl

/-- The fields of the mirror other than those of command `k` are the same in both. -/
def Mirror.AgreeOff (k : CommandKind) (m m' : Mirror) : Prop :=
  (k ≠ .oscillator → m'.oscillatorOn = m.oscillatorOn) ∧
  (k ≠ .display → m'.displayOn = m.displayOn ∧ m'.blinkRate = m.blinkRate) ∧
  (k ≠ .brightness → m'.brightness = m.brightness) ∧
  (k ≠ .interrupt → m'.interruptEnabled = m.interruptEnabled ∧ m'.interruptActiveHigh = m.interruptActiveHigh)

/-- A command writes the fields of its kind alone (R23). -/
theorem answered_agreeOff (k : CommandKind) (b : Byte) (r : Reply) (m : Mirror) : m.AgreeOff k (m.answered k b r) := by
  cases k <;> cases r <;> simp [Mirror.AgreeOff, Mirror.record, Mirror.forget]

/-- Settles O46: a field that changed is one of the command's kind, and each kind is one operation's. -/
theorem mirrorFieldsWrittenByTheirCommandsOnly : Obligations.MirrorFieldsWrittenByTheirCommandsOnly := by
  intro i s t h
  obtain hcfg | ⟨k, b, w, r, hcmd, hcfg⟩ := exec_cfg h
  · simp [hcfg]
  · obtain ⟨hosc, hdisp, hbright, hint⟩ := answered_agreeOff k b r s.cfg
    rw [← hcfg] at hosc hdisp hbright hint
    obtain ⟨on, rfl, rfl, -⟩ | ⟨on, blink, rfl, rfl, -⟩ | ⟨n, l, rfl, rfl, -⟩ | ⟨e, a, rfl, rfl, -⟩ := hcmd
    · simp [hdisp, hbright, hint]
    · simp [hosc, hbright, hint]
    · simp [hosc, hdisp, hint]
    · simp [hosc, hdisp, hbright]

/-! The result record. -/

@[simp] theorem lastWarn_report (r : OpResult) (s : State) : lastWarn (s.report r) = some r.warn := by simp [lastWarn]

@[simp] theorem replyRecord_warn (w : Bool) (r : Reply) : (replyRecord w r).warn = w := by cases r <;> rfl

@[simp] theorem readRecord_warn (r : Reply) : (readRecord r).warn = false := by cases r <;> rfl

/-- The warning's condition (R161). -/
theorem invalidBrightness_iff (nonint : Bool) (level : Int) :
    invalidBrightness nonint level = true ↔ nonint = true ∨ level < 0 ∨ 15 < level := by
  rw [invalidBrightness, show ((maxBrightness : Nat) : Int) = 15 from rfl]
  simp [or_assoc]

/-- A command's warning is set exactly for a BRIGHT whose level is out of range. -/
theorem CommandOf.warn_iff {i : Instr} {k : CommandKind} {b : Byte} {w : Bool} (h : CommandOf i k b w) :
    w = true ↔ ∃ nonint level, i = .bright nonint level ∧ (nonint = true ∨ level.toInt < 0 ∨ 15 < level.toInt) := by
  obtain ⟨on, rfl, -, rfl, -⟩ | ⟨on, blink, rfl, -, rfl, -⟩ | ⟨nonint, level, rfl, -, rfl, -⟩ |
    ⟨e, a, rfl, -, rfl, -⟩ := h
  · simp
  · simp
  · simp [invalidBrightness_iff]
  · simp

/-- Settles O49: only a command can end with the warning. -/
theorem warningExactlyFromAClampedBright : Obligations.WarningExactlyFromAClampedBright := by
  intro i s t h
  obtain ⟨k, b, w, r, hcmd, -, rfl⟩ | ⟨v, r, hw, -, rfl⟩ | ⟨r, rfl, -, rfl⟩ | ⟨_, rfl, -, rfl⟩ |
    ⟨_, _, _, _, _, rfl, -, rfl⟩ | ⟨_, rfl, rfl⟩ := exec_cases h
  · simp [← hcmd.warn_iff]
  · obtain ⟨_, rfl, -⟩ | ⟨_, _, _, _, _, rfl, -⟩ := hw <;> simp
  · simp
  · simp [lastWarn]
  · simp [lastWarn]
  · simp [lastWarn]

/-- Settles O50: each of the three kinds of transaction reports an error answer as it came; the other operations hand
nothing over. -/
theorem transportErrorPropagatesUnchanged : Obligations.TransportErrorPropagatesUnchanged := by
  intro i s t x e h hlog
  obtain ⟨_, _, w, r, -, -, rfl⟩ | ⟨_, r, -, -, rfl⟩ | ⟨r, -, -, rfl⟩ | ⟨_, -, -, rfl⟩ |
    ⟨_, _, _, _, _, -, -, rfl⟩ | ⟨_, -, rfl⟩ := exec_cases h
  · obtain ⟨-, rfl⟩ := log_append_inj hlog; exact ⟨w, rfl⟩
  · obtain ⟨-, rfl⟩ := log_append_inj hlog; exact ⟨false, rfl⟩
  · obtain ⟨-, rfl⟩ := log_append_inj hlog; exact ⟨false, rfl⟩
  all_goals simp at hlog

/-! One record, at most one transaction. -/

/-- Every operation ends with one result record (R12). -/
theorem exec_results {i : Instr} {s t : State} (h : exec i s = .next t) : ∃ r, t.results = s.results ++ [r] := by
  obtain ⟨_, _, _, _, -, -, rfl⟩ | ⟨_, _, -, -, rfl⟩ | ⟨_, -, -, rfl⟩ | ⟨_, -, -, rfl⟩ |
    ⟨_, _, _, _, _, -, -, rfl⟩ | ⟨_, -, rfl⟩ := exec_cases h <;> exact ⟨_, rfl⟩

/-- The three operations that end without a transaction. -/
def Quiet (i : Instr) (t : State) : Prop :=
  (∃ mode, i = .setjust mode) ∨ lastError t = some .invalidGeometry ∨ lastError t = some .invalidValueType

/-- No other operation is quiet: its record holds an answer of the transport. -/
theorem not_quiet {i : Instr} {t : State} {e : OpError} (hi : ∀ mode, i ≠ .setjust mode)
    (he : lastError t = some e) (hlevel : ¬ e.IsEncoderLevel) : ¬ Quiet i t := by
  rintro (⟨mode, hmode⟩ | hg | hv)
  · exact hi mode hmode
  · exact hlevel (.inl (Option.some.inj (he.symm.trans hg)))
  · exact hlevel (.inr (Option.some.inj (he.symm.trans hv)))

theorem CommandOf.ne_setjust {i : Instr} {k : CommandKind} {b : Byte} {w : Bool} (h : CommandOf i k b w)
    (mode : Justification) : i ≠ .setjust mode := by
  obtain ⟨_, rfl, -⟩ | ⟨_, _, rfl, -⟩ | ⟨_, _, rfl, -⟩ | ⟨_, _, rfl, -⟩ := h <;> exact nofun

theorem WriteOf.ne_setjust {i : Instr} {s : State} {v : List Byte} (h : WriteOf i s v) (mode : Justification) :
    i ≠ .setjust mode := by
  obtain ⟨_, rfl, -⟩ | ⟨_, _, _, _, _, rfl, -⟩ := h <;> exact nofun

/-- After one exchange and a report the trace is longer by the transaction. -/
theorem trace_handOver (x : Transaction) (r : Reply) (s : State) : (s.handOver x r).trace = s.trace ++ [x] := by
  simp [State.trace]

/-- An operation makes one transaction, or none and is quiet (R48). -/
theorem exec_trace {i : Instr} {s t : State} (h : exec i s = .next t) :
    (t.trace = s.trace ∧ Quiet i t) ∨ ((∃ x, t.trace = s.trace ++ [x]) ∧ ¬ Quiet i t) := by
  obtain ⟨_, b, w, r, hcmd, -, rfl⟩ | ⟨v, r, hw, -, rfl⟩ | ⟨r, rfl, -, rfl⟩ | ⟨_, rfl, -, rfl⟩ |
    ⟨_, _, _, _, _, rfl, -, rfl⟩ | ⟨mode, rfl, rfl⟩ := exec_cases h
  · exact .inr ⟨⟨_, trace_handOver (.cmd b) r s⟩,
      not_quiet hcmd.ne_setjust (lastError_report _ _) (not_isEncoderLevel_replyRecord w r)⟩
  · exact .inr ⟨⟨_, trace_handOver (.wr 0x00 v) r s⟩,
      not_quiet hw.ne_setjust (lastError_report _ _) (not_isEncoderLevel_replyRecord false r)⟩
  · exact .inr ⟨⟨_, trace_handOver (.rd 0x40 6) r s⟩,
      not_quiet nofun (lastError_report _ _) (not_isEncoderLevel_readRecord r)⟩
  · exact .inl ⟨rfl, .inr (.inl (lastError_report _ _))⟩
  · exact .inl ⟨rfl, .inr (.inr (lastError_report _ _))⟩
  · exact .inl ⟨rfl, .inl ⟨mode, rfl⟩⟩

/-- Settles O42. -/
theorem atMostOneTransactionPerOperation : Obligations.AtMostOneTransactionPerOperation := by
  intro i s t h
  refine ⟨exec_results h, ?_⟩
  obtain ⟨htrace, hquiet⟩ | ⟨⟨x, htrace⟩, hquiet⟩ := exec_trace h
  · exact ⟨.inl htrace, iff_of_true htrace hquiet⟩
  · exact ⟨.inr ⟨x, htrace⟩, iff_of_false (by simp [htrace]) hquiet⟩

end Sys2Proof.Machine
end

