-- ==== Sys2Proof/Proofs/DisplayRam.lean ====
section
/-! PROOFS. What the block writes of PACK and NUM put in the derived display RAM (R44, R47, R48), and how R71 reads the
three block transactions. -/

namespace Sys2Proof.Machine
open Sys2Proof.Claims

/-! The view after one more exchange. -/

/-- An answered write from `0x00` puts byte `a` at address `a` (R44). -/
theorem ramByte_of_write_ok {s t : State} {v : List Byte} {bytes : Vector Byte 6}
    (h : t.log = s.log ++ [⟨.wr 0x00 v, .ok bytes⟩]) (a : Nat) :
    t.ramByte a = if a < v.length then v[a]? else s.ramByte a := by
  rw [State.ramByte, h, displayRam_append, Memory.afterExchange, readByte_writeBytes]
  simp [State.ramByte]

/-- After a failed write from `0x00` its addresses are unknown (R48). -/
theorem ramByte_of_write_error {s t : State} {v : List Byte} {e : TransportErr}
    (h : t.log = s.log ++ [⟨.wr 0x00 v, .error e⟩]) (a : Nat) :
    t.ramByte a = if a < v.length then none else s.ramByte a := by
  rw [State.ramByte, h, displayRam_append, Memory.afterExchange, readByte_forgetBytes]
  simp [State.ramByte]

/-- An exchange that is no block write does not touch the view (R43). -/
theorem ramByte_of_no_write {s t : State} {x : Transaction} {r : Reply} (hx : ∀ a v, x ≠ .wr a v)
    (h : t.log = s.log ++ [⟨x, r⟩]) (a : Nat) : t.ramByte a = s.ramByte a := by
  rw [State.ramByte, h, displayRam_append]
  cases x with
  | wr a v => exact absurd rfl (hx a v)
  | cmd b => rfl
  | rd a n => rfl

/-! What PACK, NUM and KEYSCAN log. -/

/-- A PACK logs the write of its buffer, or nothing. -/
theorem exec_pack_log {cells : List Bool} {s t : State} (h : exec (.pack cells) s = .next t) :
    (∃ r, t.log = s.log ++ [⟨.wr 0x00 (packBuffer s.board cells), r⟩]) ∨ t.log = s.log := by
  cases hg : geometryOk s.board cells.length with
  | true =>
    rw [exec_pack_of_geometryOk hg] at h
    obtain ⟨r, -, rfl⟩ := writeBlock_next h
    exact .inl ⟨r, rfl⟩
  | false =>
    rw [exec_pack_of_geometryOk_eq_false hg] at h
    cases h
    exact .inr rfl

/-- A NUM logs a write of nine bytes, or nothing. -/
theorem exec_num_log {vkind : BitVec 2} {neg : Bool} {ipart : BitVec 32} {frac : List Digit} {colon : Bool}
    {s t : State} (h : exec (.num vkind neg ipart frac colon) s = .next t) :
    (∃ v r, v.length = 9 ∧ t.log = s.log ++ [⟨.wr 0x00 v, r⟩]) ∨ t.log = s.log := by
  simp only [exec, execNum] at h
  cases hv : valueKind vkind <;> simp only [hv] at h
  case nonNumeric => cases h; exact .inr rfl
  all_goals
    obtain ⟨r, -, rfl⟩ := writeBlock_next h
    exact .inl ⟨_, r, rfl, rfl⟩

/-- Settles O53: with a right geometry the buffer's sixteen bytes are written from `0x00`. -/
theorem packWritesTheDisplayRam : Obligations.PackWritesTheDisplayRam := by
  intro cells s hgood
  have hg : geometryOk s.board cells.length = true := by
    rw [← geometryOk_eq_false_iff, Bool.not_eq_false] at hgood; exact hgood
  rw [← packBuffer_length s.board cells]
  exact ⟨fun v hv => ⟨_, exec_pack_answers hg hv, ramByte_of_write_ok rfl⟩,
    fun e he => ⟨_, exec_pack_answers hg he, ramByte_of_write_error rfl⟩⟩

/-- Settles O54: what a NUM logs is a write of nine bytes from `0x00`. -/
theorem numLeavesTheUpperDisplayRam : Obligations.NumLeavesTheUpperDisplayRam := by
  intro vkind neg ipart frac colon s t x h
  obtain ⟨v, r, hlen, hlog⟩ | hlog := exec_num_log h
  · refine ⟨fun bytes hok => ?_, fun e herror => ?_⟩
    · obtain ⟨rfl, rfl⟩ := log_append_inj (hlog ▸ hok)
      exact ⟨v, rfl, hlen, hlen ▸ ramByte_of_write_ok hlog⟩
    · obtain ⟨-, rfl⟩ := log_append_inj (hlog ▸ herror)
      exact hlen ▸ ramByte_of_write_error hlog
  · simp [hlog]

/-- Settles O55: of the six things an operation can do, one hands over a block write. -/
theorem onlyBlockWritesTouchTheDisplayRam : Obligations.OnlyBlockWritesTouchTheDisplayRam := by
  intro i s t h
  obtain ⟨_, b, _, r, -, -, rfl⟩ | ⟨v, r, -, -, rfl⟩ | ⟨r, -, -, rfl⟩ | ⟨_, -, -, rfl⟩ |
    ⟨_, _, _, _, _, -, -, rfl⟩ | ⟨_, -, rfl⟩ := exec_cases h
  · exact .inr (ramByte_of_no_write (x := .cmd b) (r := r) nofun rfl)
  · exact .inl ⟨0x00, v, trace_handOver (.wr 0x00 v) r s⟩
  · exact .inr (ramByte_of_no_write (x := .rd 0x40 6) (r := r) nofun rfl)
  · exact .inr fun _ => rfl
  · exact .inr fun _ => rfl
  · exact .inr fun _ => rfl

/-! Reading the block transactions back (R71). -/

/-- One exchange in the log is one transaction in the trace. -/
theorem eq_of_trace_of_log {s t : State} {x y : Transaction} {r : Reply} (htrace : t.trace = s.trace ++ [x])
    (hlog : t.log = s.log ++ [⟨y, r⟩]) : x = y := by
  have h : y = x := by simpa [State.trace, hlog] using htrace
  exact h.symm

theorem trace_ne_of_log {s t : State} {x : Transaction} (htrace : t.trace = s.trace ++ [x]) : t.log ≠ s.log := by
  intro hlog
  simp [State.trace, hlog] at htrace

/-- Settles O57: the lengths 16 and 9 tell the two writes apart, and what is logged has them. -/
theorem blockTransactionsReadBack : Obligations.BlockTransactionsReadBack := by
  refine ⟨fun _ => readTransaction_matrix, fun _ => readTransaction_digits, by decide, ?_, ?_, ?_⟩
  · intro cells s t x h htrace
    obtain ⟨r, hlog⟩ | hlog := exec_pack_log h
    · rw [eq_of_trace_of_log htrace hlog]
      exact readTransaction_matrix (packBuffer_length _ _)
    · exact absurd hlog (trace_ne_of_log htrace)
  · intro vkind neg ipart frac colon s t x h htrace
    obtain ⟨v, r, hlen, hlog⟩ | hlog := exec_num_log h
    · have hx := eq_of_trace_of_log htrace hlog
      exact ⟨v, hx, hx ▸ readTransaction_digits hlen⟩
    · exact absurd hlog (trace_ne_of_log htrace)
  · intro s t x h htrace
    obtain ⟨r, -, rfl⟩ := readBlock_next h
    rw [eq_of_trace_of_log htrace rfl]
    decide

end Sys2Proof.Machine
end

