-- ==== Sys2Proof/Proofs/Number.lean ====
section
/-! PROOFS. The value of a NUM as an exact decimal and as a text (R67, R68): the range policy (R125) and the point's
place (R126). -/

namespace Sys2Proof.Machine
open Sys2Proof.Claims

/-! The exact decimal (R67) and the range policy (R125). -/

theorem fracValue_nonneg : ∀ frac : List Digit, 0 ≤ fracValue frac
  | [] => le_rfl
  | d :: ds => by
    have := fracValue_nonneg ds
    rw [fracValue]
    positivity

/-- A fraction is below 1. -/
theorem fracValue_lt_one : ∀ frac : List Digit, fracValue frac < 1
  | [] => by norm_num [fracValue]
  | d :: ds => by
    have hds := fracValue_lt_one ds
    have hd : (d.val : ℚ) ≤ 9 := by exact_mod_cast Nat.le_of_lt_succ d.isLt
    rw [fracValue]
    linarith

/-- A fraction is 0 exactly when each of its digits is. -/
theorem fracValue_pos_iff (frac : List Digit) : 0 < fracValue frac ↔ fracNonzero frac = true := by
  induction frac with
  | nil => simp [fracValue, fracNonzero]
  | cons d ds ih =>
    have hds := fracValue_nonneg ds
    have hd : (0 : ℚ) ≤ d.val := Nat.cast_nonneg _
    by_cases h : d = 0
    · subst h
      simp only [fracNonzero, List.any_cons] at ih ⊢
      simp [fracValue, ih]
    · have hpos : (0 : ℚ) < d.val := by exact_mod_cast Nat.pos_of_ne_zero (fun h0 => h (Fin.ext h0))
      refine iff_of_true ?_ (by simp [fracNonzero, h])
      rw [fracValue]
      positivity

/-- An exact decimal exceeds a whole number by its integer part, or by its fraction alone. -/
theorem lt_add_fracValue_iff (m ipart : Nat) (frac : List Digit) :
    (m : ℚ) < ipart + fracValue frac ↔ m < ipart ∨ (ipart = m ∧ fracNonzero frac = true) := by
  have h0 := fracValue_nonneg frac
  have h1 := fracValue_lt_one frac
  rw [← fracValue_pos_iff]
  rcases Nat.lt_trichotomy m ipart with hlt | rfl | hgt
  · have : (m : ℚ) < ipart := by exact_mod_cast hlt
    exact iff_of_true (by linarith) (.inl hlt)
  · simp
  · have : (ipart : ℚ) + 1 ≤ m := by exact_mod_cast hgt
    exact iff_of_false (by linarith) (by omega)

theorem decimalValue_false (ipart : Nat) (frac : List Digit) :
    decimalValue false ipart frac = ipart + fracValue frac := by simp [decimalValue]

theorem decimalValue_true (ipart : Nat) (frac : List Digit) :
    decimalValue true ipart frac = -(ipart + fracValue frac) := by simp [decimalValue]

/-- Above the range a value has no sign. -/
theorem lt_decimalValue_iff (neg : Bool) (ipart : Nat) (frac : List Digit) :
    9999 < decimalValue neg ipart frac ↔
      neg = false ∧ (maxShown < ipart ∨ (ipart = maxShown ∧ fracNonzero frac = true)) := by
  cases neg with
  | false => simpa [decimalValue_false, maxShown] using lt_add_fracValue_iff 9999 ipart frac
  | true =>
    have h0 := fracValue_nonneg frac
    have hn : (0 : ℚ) ≤ ipart := Nat.cast_nonneg _
    rw [decimalValue_true]
    exact iff_of_false (by linarith) (by simp)

/-- Below the range a value has a sign. -/
theorem decimalValue_lt_iff (neg : Bool) (ipart : Nat) (frac : List Digit) :
    decimalValue neg ipart frac < -999 ↔
      neg = true ∧ (minShown < ipart ∨ (ipart = minShown ∧ fracNonzero frac = true)) := by
  cases neg with
  | true => simpa [decimalValue_true, minShown] using lt_add_fracValue_iff 999 ipart frac
  | false =>
    have h0 := fracValue_nonneg frac
    have hn : (0 : ℚ) ≤ ipart := Nat.cast_nonneg _
    rw [decimalValue_false]
    exact iff_of_false (by linarith) (by simp)

/-- The range policy, on the exact decimal (R125). -/
theorem clampValue_eq (neg : Bool) (ipart : Nat) (frac : List Digit) :
    clampValue neg ipart frac =
      if 9999 < decimalValue neg ipart frac then (9999, [])
      else if decimalValue neg ipart frac < -999 then (999, []) else (ipart, frac) := by
  simp only [lt_decimalValue_iff, decimalValue_lt_iff]
  rfl

/-- Settles O31. -/
theorem rangePolicyComparesExactDecimals : Obligations.RangePolicyComparesExactDecimals := by
  intro neg ipart frac
  rw [clampValue_eq]
  refine ⟨fun h => if_pos h, fun h => ?_, fun hlo hhi => ?_⟩
  · rw [if_neg (by linarith), if_pos h]
  · rw [if_neg (by linarith), if_neg (by linarith)]

/-! The text and the point's index (R68, R126). -/

/-- The statements' text is the model's, on every number a port carries. -/
theorem text_eq_valueText {n : Nat} (h : n < 10 ^ 10) (neg : Bool) (frac : List Digit) :
    text neg n frac = valueText neg n frac := by
  rw [text, valueText, dec_toDigits n h]
  rfl

/-- The characters before the point. -/
theorem length_signText_append (neg : Bool) (n : Nat) :
    (signText neg ++ (dec n).map digitChar).length = pointIndex neg n := by
  rw [pointIndex_eq]
  cases neg <;> simp [signText, Nat.add_comm]

theorem point_notMem_digits (ds : List Digit) : '.' ∉ ds.map digitChar := by simp [digitChar_ne_point]

theorem point_notMem_integer (neg : Bool) (n : Nat) : '.' ∉ signText neg ++ (dec n).map digitChar := by
  rw [List.mem_append, not_or]
  exact ⟨by cases neg <;> simp [signText], point_notMem_digits _⟩

/-- A value's text has a point exactly where there is a fraction. -/
theorem point_mem_valueText_iff (neg : Bool) (n : Nat) (frac : List Digit) :
    '.' ∈ valueText neg n frac ↔ frac ≠ [] := by
  rw [valueText_eq, ← List.append_assoc, List.mem_append, or_iff_right (point_notMem_integer neg n)]
  cases frac <;> simp [fracText]

theorem idxOf_point_valueText {frac : List Digit} (h : frac ≠ []) (neg : Bool) (n : Nat) :
    (valueText neg n frac).idxOf '.' = pointIndex neg n := by
  rw [valueText_eq, ← List.append_assoc, List.idxOf_append_of_notMem (point_notMem_integer neg n),
    length_signText_append, fracText, if_neg h]
  simp

theorem pointAccepted_iff (neg : Bool) (n : Nat) (frac : List Digit) :
    pointAccepted neg n frac = true ↔ frac ≠ [] ∧ pointIndex neg n ≤ 3 := by
  simp [pointAccepted]

theorem pointIndex_pos (neg : Bool) (n : Nat) : 1 ≤ pointIndex neg n := by
  have := dec_length_pos n
  rw [pointIndex_eq]
  omega

/-- After the range policy the characters before the point fit the four slots. -/
theorem pointIndex_clampValue_le (neg : Bool) (ipart : Nat) (frac : List Digit) :
    pointIndex neg (clampValue neg ipart frac).1 ≤ 4 := by
  obtain ⟨hmax, hmin⟩ := clampValue_le neg ipart frac
  rw [pointIndex_eq]
  cases neg with
  | false =>
    have := dec_length_le (m := 4) (Nat.lt_succ_of_le hmax) (by decide)
    simpa using this
  | true =>
    have := dec_length_le (m := 3) (Nat.lt_succ_of_le (hmin rfl)) (by decide)
    simp only [Bool.toNat_true]
    omega

/-- Settles O32. -/
theorem pointAcceptedExactlyInTheFirstFour : Obligations.PointAcceptedExactlyInTheFirstFour := by
  intro neg ipart frac hipart
  have hdec := dec_toDigits ipart (by omega)
  refine ⟨?_, fun h => ?_, pointAccepted_iff neg ipart frac,
    ⟨pointIndex_pos _ _, pointIndex_clampValue_le neg ipart frac⟩, ?_⟩
  · rw [pointIndex_eq, ← hdec, List.length_map]
  · rw [text_eq_valueText (by omega), idxOf_point_valueText h]
  · rintro rfl
    have := dec_length_pos (clampValue true ipart frac).1
    rw [pointIndex_eq, Bool.toNat_true]
    omega

end Sys2Proof.Machine
end

