-- ==== Sys2Proof/Proofs/Slots.lean ====
section
/-! PROOFS. The four slots of a NUM (R127 to R131): where justification and the point stand, and that the nine bytes are
those of the text of the value. -/

namespace Sys2Proof.Machine
open Sys2Proof.Claims

/-! The slots (R129, R130). -/

theorem justOffset_add_length_le (just : Justification) {n : Nat} (h : n ≤ 4) : justOffset just n + n ≤ 4 := by
  cases just
  · rw [justOffset]; omega
  · rw [justOffset]; omega

/-- Slot by slot: the characters from the first one's slot on, blanks elsewhere (R129). -/
theorem slotGlyphs_getElem? (g : GlyphTable) (just : Justification) {text : List GlyphChar} (h : text.length ≤ 4)
    {j : Nat} (hj : j < 4) :
    (slotGlyphs g just text)[j]? =
      if justOffset just text.length ≤ j ∧ j < justOffset just text.length + text.length then
        text[j - justOffset just text.length]?.map (glyph g)
      else some 0x00 := by
  have hoff := justOffset_add_length_le just h
  simp only [slotGlyphs, blank]
  generalize justOffset just text.length = off at hoff ⊢
  by_cases hlo : j < off
  · rw [List.append_assoc, List.getElem?_append_left (by simpa using hlo), if_neg (by omega)]
    simp [hlo]
  · by_cases hhi : j < off + text.length
    · rw [List.getElem?_append_left (by simpa using hhi), List.getElem?_append_right (by simp; omega),
        if_pos (by omega)]
      simp
    · rw [List.getElem?_append_right (by simp; omega), if_neg (by omega)]
      simp only [List.length_append, List.length_replicate, List.length_map]
      rw [List.getElem?_replicate, if_pos (by omega)]

theorem slotGlyphs_length (g : GlyphTable) (just : Justification) {text : List GlyphChar} (h : text.length ≤ 4) :
    (slotGlyphs g just text).length = 4 := by
  have := justOffset_add_length_le just h
  simp [slotGlyphs]
  omega

/-- Settles O33. -/
theorem justificationPlacesTheCharacters : Obligations.JustificationPlacesTheCharacters := by
  intro g text h
  refine ⟨fun just => slotGlyphs_length g just h, fun j hj => ?_, fun j hj => ?_, fun j hj => ?_, fun j hlo hj => ?_⟩
  · rw [slotGlyphs_getElem? g .right h (by omega), justOffset, if_neg (by omega)]
  · rw [slotGlyphs_getElem? g .right h (by omega), justOffset, if_pos (by omega), Nat.add_sub_cancel_left]
  · rw [slotGlyphs_getElem? g .left h (by omega), justOffset, if_pos (by omega), Nat.sub_zero]
  · rw [slotGlyphs_getElem? g .left h hj, justOffset, if_neg (by omega)]

theorem length_shownText (neg : Bool) (n : Nat) (frac : List Digit) :
    (shownText neg n frac).length = min 4 (pointIndex neg n + frac.length) := by
  simp [shownText, pointIndex]

theorem length_shownText_le (neg : Bool) (n : Nat) (frac : List Digit) : (shownText neg n frac).length ≤ 4 := by
  rw [length_shownText]; omega

/-- The accepted point stands in the slot before its place in the text (R130). -/
theorem pointSlot_eq_some_iff (just : Justification) (neg : Bool) (n : Nat) (frac : List Digit) (j : Nat) :
    pointSlot just neg n frac = some j ↔
      (frac ≠ [] ∧ pointIndex neg n ≤ 3) ∧
        j + 1 = justOffset just (shownText neg n frac).length + pointIndex neg n := by
  have := pointIndex_pos neg n
  rw [← pointAccepted_iff, pointSlot]
  cases pointAccepted neg n frac
  · simp
  · simp only [if_true, Option.some.injEq, true_and]
    omega

/-- An accepted point has a character before it and one after it among those shown. -/
theorem lt_length_shownText {neg : Bool} {n : Nat} {frac : List Digit} (hfrac : frac ≠ [])
    (h : pointIndex neg n ≤ 3) : pointIndex neg n < (shownText neg n frac).length := by
  have := List.length_pos_iff.mpr hfrac
  rw [length_shownText]
  omega


/-! Bit 7 of a slot (R130, R133). -/

/-- Every glyph and every blank of the slots has bit 7 clear. -/
theorem slotGlyphs_getLsbD_seven (g : GlyphTable) (just : Justification) (text : List GlyphChar) (j : Nat) :
    ((slotGlyphs g just text).getD j blank).getLsbD 7 = false := by
  have hmem : ∀ b ∈ slotGlyphs g just text, b.getLsbD 7 = false := by
    intro b hb
    simp only [slotGlyphs, List.mem_append, List.mem_replicate, List.mem_map] at hb
    obtain (⟨-, rfl⟩ | ⟨c, -, rfl⟩) | ⟨-, rfl⟩ := hb
    · rfl
    · exact glyph_getLsbD_seven g c
    · rfl
  rw [List.getD_eq_getElem?_getD]
  cases h : (slotGlyphs g just text)[j]? with
  | none => rfl
  | some b => exact hmem b (List.mem_of_getElem? h)

theorem getLsbD_seven_or_pointBit : ∀ b : Byte, (b ||| pointBit).getLsbD 7 = true := by decide

/-- A display whose glyphs leave bit 7 clear has it set on the point's slot alone. -/
theorem slotByte_getLsbD_seven {d : NumericDisplay} {j : Nat} (h : (d.digits.getD j blank).getLsbD 7 = false) :
    (d.slotByte j).getLsbD 7 = true ↔ d.decimalPointSlot = some j := by
  rw [NumericDisplay.slotByte]
  split
  next hp => exact iff_of_true (getLsbD_seven_or_pointBit _) hp
  next hp => exact iff_of_false (by rw [h]; decide) hp

/-- The last character before the point is a digit of the integer part, never the sign. -/
theorem integerText_last (neg : Bool) (n : Nat) :
    ∃ x, x ∈ dec n ∧ (integerText neg n)[pointIndex neg n - 1]? = some (.digit x) := by
  have hne : dec n ≠ [] := List.ne_nil_of_length_pos (dec_length_pos n)
  refine ⟨(dec n).getLast hne, List.getLast_mem hne, ?_⟩
  rw [pointIndex, ← List.getLast?_eq_getElem?, integerText, List.getLast?_append, List.getLast?_map,
    List.getLast?_eq_some_getLast hne]
  rfl

/-- The character before an accepted point is shown, and is a digit of the integer part. -/
theorem shownText_before_point {neg : Bool} {n : Nat} (h : pointIndex neg n ≤ 3) (frac : List Digit) :
    ∃ x, x ∈ dec n ∧ (shownText neg n frac)[pointIndex neg n - 1]? = some (.digit x) := by
  obtain ⟨x, hx, hlast⟩ := integerText_last neg n
  have hpos := pointIndex_pos neg n
  refine ⟨x, hx, ?_⟩
  rw [shownText, List.getElem?_take_of_lt (by omega), List.getElem?_append_left (by rw [← pointIndex]; omega), hlast]

/-- The byte of the point's slot, of a value inside the range (R130, R133). -/
theorem slotByte_of_pointSlot (g : GlyphTable) {just : Justification} {neg : Bool} {n : Nat} {frac : List Digit}
    (colon : Bool) {j : Nat} (h : pointSlot just neg n frac = some j) :
    j ≤ 2 ∧ ∃ x, x ∈ dec n ∧ (showInRange g just neg n frac colon).slotByte j = glyph g (.digit x) ||| 0x80 := by
  obtain ⟨⟨hfrac, hindex⟩, hj⟩ := (pointSlot_eq_some_iff just neg n frac j).mp h
  obtain ⟨x, hx, hchar⟩ := shownText_before_point hindex frac
  have hlen := length_shownText_le neg n frac
  have hoff := justOffset_add_length_le just hlen
  have hlt := lt_length_shownText hfrac hindex
  have hpos := pointIndex_pos neg n
  refine ⟨by omega, x, hx, ?_⟩
  have hglyph : (slotGlyphs g just (shownText neg n frac))[j]? = some (glyph g (.digit x)) := by
    rw [slotGlyphs_getElem? g just hlen (by omega), if_pos (by omega), ← Option.map_some, ← hchar]
    congr 2
    omega
  rw [NumericDisplay.slotByte, showInRange, if_pos h, List.getD_eq_getElem?_getD, hglyph]
  rfl

/-- Settles O34: it holds of every value inside the range, and the range policy gives one. -/
theorem pointBitMarksOneDigitSlot : Obligations.PointBitMarksOneDigitSlot := by
  intro g just neg ipart frac colon _
  exact ⟨fun j _ => slotByte_getLsbD_seven (slotGlyphs_getLsbD_seven g just _ j),
    fun j hj => slotByte_of_pointSlot g colon hj⟩

/-! The text's side (R126 to R130). -/

/-- The character a glyph stands for (R120). -/
def GlyphChar.char : GlyphChar → Char
  | .digit d => digitChar d
  | .minus => '-'
  | .colon => ':'

theorem map_char_integerText (neg : Bool) (n : Nat) :
    (integerText neg n).map GlyphChar.char = signText neg ++ (dec n).map digitChar := by
  cases neg <;> simp [integerText, signText, GlyphChar.char, Function.comp_def]

/-- The text without its point, cut to four characters, is the one shown (R127). -/
theorem cut_valueText (neg : Bool) (n : Nat) (frac : List Digit) :
    cut (valueText neg n frac) = (shownText neg n frac).map GlyphChar.char := by
  have hkeep {cs : List Char} (h : '.' ∉ cs) : cs.filter (fun c => c ≠ '.') = cs :=
    List.filter_eq_self.mpr fun c hc => decide_eq_true fun he => h (he ▸ hc)
  have hfrac : (fracText frac).filter (fun c => c ≠ '.') = frac.map digitChar := by
    cases frac with
    | nil => rfl
    | cons d ds => exact hkeep (point_notMem_digits (d :: ds))
  rw [cut, valueText_eq, ← List.append_assoc, List.filter_append, hkeep (point_notMem_integer neg n), hfrac, shownText,
    List.map_take, List.map_append, map_char_integerText, List.map_map]
  rfl

theorem digitChar_toNat : ∀ d : Digit, (digitChar d).toNat - 48 = d.val := by decide

/-- The statements' glyph of a character is the model's; a text holds no colon. -/
theorem charGlyph_char (g : GlyphTable) {c : GlyphChar} (h : c ≠ .colon) : charGlyph g c.char = glyph g c := by
  cases c with
  | digit d => simp [charGlyph, GlyphChar.char, glyph, digitChar_ne_minus, digitChar_toNat]
  | minus => rfl
  | colon => exact absurd rfl h

theorem ne_colon_of_mem_shownText {neg : Bool} {n : Nat} {frac : List Digit} {c : GlyphChar}
    (h : c ∈ shownText neg n frac) : c ≠ .colon := by
  have hmem := List.mem_of_mem_take h
  rw [integerText, List.mem_append, List.mem_append, List.mem_map, List.mem_map] at hmem
  obtain (hsign | ⟨d, -, rfl⟩) | ⟨d, -, rfl⟩ := hmem
  · cases neg <;> simp at hsign; subst hsign; exact nofun
  · exact nofun
  · exact nofun

/-- The statements' condition on the point is that of its slot (R126, R130). -/
theorem point_condition_iff (just : Justification) (neg : Bool) (n : Nat) (frac : List Digit) (j : Nat) :
    ('.' ∈ valueText neg n frac ∧ (valueText neg n frac).idxOf '.' ≤ 3 ∧
        j + 1 = justOffset just (shownText neg n frac).length + (valueText neg n frac).idxOf '.') ↔
      pointSlot just neg n frac = some j := by
  rw [pointSlot_eq_some_iff, point_mem_valueText_iff, and_assoc]
  refine and_congr_right fun hfrac => ?_
  rw [idxOf_point_valueText hfrac]

theorem firstSlot_eq_justOffset (just : Justification) (n : Nat) : firstSlot just n = justOffset just n := by
  cases just <;> rfl

/-- A slot's byte, made from the text (R126 to R130). -/
theorem slot_valueText (g : GlyphTable) (just : Justification) (neg : Bool) (n : Nat) (frac : List Digit) (colon : Bool)
    {j : Nat} (hj : j < 4) :
    slot g just (valueText neg n frac) j = (showInRange g just neg n frac colon).slotByte j := by
  have hglyphs := slotGlyphs_getElem? g just (length_shownText_le neg n frac) hj
  simp only [slot, cut_valueText, List.length_map, firstSlot_eq_justOffset, point_condition_iff,
    NumericDisplay.slotByte, showInRange, List.getD_eq_getElem?_getD, hglyphs]
  split
  next hin =>
    have hlt : j - justOffset just (shownText neg n frac).length < (shownText neg n frac).length := by omega
    have hchar := charGlyph_char g (ne_colon_of_mem_shownText (List.getElem_mem hlt))
    rw [List.getElem?_map, List.getElem?_eq_getElem hlt]
    simp only [Option.map_some, Option.getD_some, hchar]
    split
    · rfl
    · exact BitVec.or_zero
  next hout =>
    have hpoint : pointSlot just neg n frac ≠ some j := by
      intro h
      obtain ⟨⟨hfrac, hindex⟩, hslot⟩ := (pointSlot_eq_some_iff just neg n frac j).mp h
      have := lt_length_shownText hfrac hindex
      have := pointIndex_pos neg n
      exact hout (by omega)
    rw [if_neg hpoint]
    rfl

/-- The text NUM shows is that of the value after the range policy (R125). -/
theorem shown_eq_valueText {ipart : Nat} (h : ipart < 10 ^ 10) (neg : Bool) (frac : List Digit) :
    shown neg ipart frac = valueText neg (clampValue neg ipart frac).1 (clampValue neg ipart frac).2 := by
  rw [shown, clampValue_eq]
  split_ifs with hhi hlo
  · rw [((lt_decimalValue_iff neg ipart frac).mp hhi).1]
    decide
  · rw [((decimalValue_lt_iff neg ipart frac).mp hlo).1]
    decide
  · exact text_eq_valueText h neg frac

/-- A slot of a number's display, made from the text of the value (R123). -/
theorem slot_shown (g : GlyphTable) (just : Justification) {ipart : Nat} (h : ipart < 10 ^ 10) (neg : Bool)
    (frac : List Digit) (colon : Bool) {j : Nat} (hj : j < 4) :
    slot g just (shown neg ipart frac) j = (showNumber g just neg ipart frac colon).slotByte j := by
  rw [shown_eq_valueText h, showNumber]
  exact slot_valueText g just neg _ _ colon hj

/-! The operation (R123, R124). -/

/-- An answered block write, as the statements write it. -/
theorem writeBlock_answers_sent {a : Byte} {v : List Byte} {s : State} {r : Reply} (h : s.peek (.wr a v) = .reply r) :
    writeBlock a v s = .next (sent s (.wr a v) r s.cfg (replyRecord false r)) :=
  writeBlock_answers h

theorem exec_num_numeric (neg : Bool) (ipart : BitVec 32) (frac : List Digit) (colon : Bool) (s : State) :
    exec (.num 0 neg ipart frac colon) s =
      writeBlock 0x00 ((showNumber s.board.glyphs s.just neg ipart.toNat frac colon).bytes s.board.glyphs) s := rfl

theorem exec_num_blank (neg : Bool) (ipart : BitVec 32) (frac : List Digit) (colon : Bool) (s : State) :
    exec (.num 1 neg ipart frac colon) s = writeBlock 0x00 ((showBlank colon).bytes s.board.glyphs) s := rfl

theorem showBlank_bytes (g : GlyphTable) (colon : Bool) :
    (showBlank colon).bytes g =
      [0x00, 0x00, 0x00, 0x00, if colon then 0x02 else 0x00, 0x00, 0x00, 0x00, 0x00] := rfl

/-- Settles O30: slot by slot the nine bytes are those made from the text. -/
theorem numShowsTheTextOfTheValue : Obligations.NumShowsTheTextOfTheValue := by
  intro neg ipart frac colon s
  have hipart : ipart.toNat < 10 ^ 10 := ipart.isLt.trans (by decide)
  have hslot {j : Nat} (hj : j < 4) := slot_shown s.board.glyphs s.just hipart neg frac colon hj
  dsimp only
  rw [hslot (j := 0) (by decide), hslot (j := 1) (by decide), hslot (j := 2) (by decide), hslot (j := 3) (by decide),
    exec_num_numeric, NumericDisplay.bytes_eq, showNumber_colonOn]
  exact ⟨fun v hv => writeBlock_answers_sent hv, fun e he => writeBlock_answers_sent he⟩

/-- Settles O28: a blank is a block write of fixed bytes, and the codes 2 and 3 stand for no number. -/
theorem numBlankAndNonNumeric : Obligations.NumBlankAndNonNumeric := by
  intro neg ipart frac colon s
  rw [exec_num_blank, showBlank_bytes]
  exact ⟨fun v hv => writeBlock_answers_sent hv, fun e he => writeBlock_answers_sent he,
    exec_num_of_nonNumeric (by decide) neg ipart frac colon s,
    exec_num_of_nonNumeric (by decide) neg ipart frac colon s⟩

end Sys2Proof.Machine
end
